-- ==== Sys2Proof/Word.lean ====
section
/-! DEFINITION. The word types of the block (spec/00_scope.md R7): `u8`, `u16`, `u32`, the byte string, and the
two record types that every unit of the block handles, the 4-byte tag and the RGBA pixel. -/
namespace Sys2Proof

/-- `u8`: a channel value, an image count, one byte of a stream (R7). -/
abbrev Byte := BitVec 8

/-- `u16`: a stored color code (R7, `CODE_BITS` of R6). -/
abbrev Code := BitVec 16

/-- `u32`: `pixel_count`, `width` and `height` (R7). -/
abbrev U32 := BitVec 32

/-- A byte string in offset order, lowest offset first (R8, R10). -/
abbrev Bytes := List Byte

/-- Four bytes in string order (R44): the magic tag and the name tag. -/
structure Tag where
  b0 : Byte
  b1 : Byte
  b2 : Byte
  b3 : Byte
deriving DecidableEq, Repr

/-- An RGBA pixel: a 4-tuple `(r, g, b, a)` of `u8` (R10). -/
structure Pixel where
  r : Byte
  g : Byte
  b : Byte
  a : Byte
deriving DecidableEq, Repr

/-- One record of PARSE's payload (42_container_decode.md R119). -/
structure Record where
  nameTag : Tag
  name    : Bytes
  width   : U32
  height  : U32
  pixels  : List Pixel
deriving DecidableEq, Repr

/-- The working variables of a command in progress (R35). No host action reads them. -/
structure Work where
  /-- `cur`, the input-stream offset. -/
  cur  : Nat
  /-- `OUT`, the output byte string under construction. -/
  out  : Bytes
  /-- `N`, the image or record count. -/
  n    : Nat
  /-- `k`, the index of the current image or record. -/
  k    : Nat
  /-- `i`, the index of the current pixel within a record. -/
  i    : Nat
  /-- The records decoded so far. -/
  recs : List Record
deriving DecidableEq, Repr, Inhabited

end Sys2Proof
end

