-- ==== Sys2Proof/Config.lean ====
section
/-! DEFINITION. The parameters of spec/00_scope.md R6. The constants the source fixes are definitions. The four
parameters fixed when an instance is created (70_reset_and_hazards.md R153) form the structure `Config`. The values that
nobody fixed are opaque constants: no proof can see what they are. -/
namespace Sys2Proof
namespace Config

/-- `MAX_IMAGES` (R6, source). -/
def maxImages : Nat := 255

/-- `NAME_LEN` (R6, source). -/
def nameLen : Nat := 4

/-- `PAD`, the space character (R6; the byte value is general knowledge, 93_implementation_defined.md G1). -/
def pad : Byte := 0x20#8

/-- `BUCKET_DIV` (R6, source). -/
def bucketDiv : Nat := 32

/-- `BUCKETS`, levels per channel (R6, source). -/
def buckets : Nat := 8

/-- Bytes of a stored pixel code: `CODE_BITS` = 16 (R6, source). -/
def codeLen : Nat := 2

/-- `DESC_LEN` (R6, source). -/
def descLen : Nat := 16

/-- `HDR_LEN` (R6, source). -/
def hdrLen : Nat := 5

/-- The largest value of a `u32` field, the bound of `count_check` (41_container_encode.md R94). -/
def maxU32 : Nat := 0xFFFFFFFF

/-- The one tag `MAGIC` may not be: "xxxx" (92_eei_decisions.md D2). -/
def badMagic : Tag := ⟨0x78#8, 0x78#8, 0x78#8, 0x78#8⟩

end Config

/-- `DECODE_MAX` (R6, 92_eei_decisions.md D7): 512 by default, and a model may set 511. -/
inductive DecodeMax where
  | max512
  | max511
deriving DecidableEq, Repr

/-- `DIM_CHECK` (R6, 92_eei_decisions.md D9): `reject` by default; the other value is `ignore`. -/
inductive DimCheck where
  | reject
  | ignore
deriving DecidableEq, Repr

/-- The parameters fixed when an instance is created (R153 item 1) and never changed (10_state.md R21). -/
structure Config where
  /-- `MAGIC`, OPEN (D2). -/
  magic : Tag
  /-- `DECODE_MAX`. -/
  decodeMax : DecodeMax
  /-- `DIM_CHECK`. -/
  dimCheck : DimCheck
  /-- `MAX_IN_LEN`, OPEN (D24); `none` is unbounded, the default. -/
  maxInLen : Option Nat
deriving DecidableEq, Repr

/-- The constraint the spec puts on a configuration: `MAGIC != [78 78 78 78]` (D2). -/
def Config.wf (c : Config) : Bool := c.magic != Config.badMagic

/-- FREE VALUE: which of the permitted 4-byte values `MAGIC` is. There are `2^32 - 1` of them: all but "xxxx"
(R6, D2; notes/assumptions/2.md). -/
opaque Config.magicChoice : Fin 4294967295

/-- FREE VALUE: what `ERR_OFFSET` holds when the offset it is to record does not fit its 64 bits. R27 gives the
register 64 bits and R31 gives `off` no bound (notes/assumptions/3.md). -/
opaque Config.freeErrOffset : Nat → BitVec 64

/-- FREE VALUE: what the working variables hold where no pseudocode fixes them at issue, and all of them once time has
passed inside a command (93_implementation_defined.md U19, "any value"; notes/assumptions/4.md). Applied to the counter
`State.freeCount`. -/
opaque Config.freeWork : Nat → Work

/-- `MAGIC` as a number, byte 0 lowest: the permitted values in order, "xxxx" skipped. -/
def Config.magicNumber : Nat :=
  if Config.magicChoice.val < 0x78787878 then Config.magicChoice.val else Config.magicChoice.val + 1

/-- The configuration of the instance that `State.reset` describes: the defaults of R6, and an unknown `MAGIC`. -/
def Config.default : Config where
  magic := ⟨BitVec.ofNat 8 Config.magicNumber, BitVec.ofNat 8 (Config.magicNumber / 256),
            BitVec.ofNat 8 (Config.magicNumber / 65536), BitVec.ofNat 8 (Config.magicNumber / 16777216)⟩
  decodeMax := .max512
  dimCheck := .reject
  maxInLen := none

end Sys2Proof
end

