-- ==== Sys2Proof/Syntax.lean ====
section
/-! DEFINITION. The twelve commands (30_encoding.md R62) with their operands (10_state.md R31), and the operand record
a command takes them from (30_encoding.md R63). -/
namespace Sys2Proof

/-- One image of BUILD's operand (R31). A name is a list of Unicode scalar values, which is what Lean's `Char` holds
(92_eei_decisions.md D11; notes/assumptions/11.md). -/
structure Image where
  name   : List Char
  width  : U32
  height : U32
  pixels : List Pixel
deriving DecidableEq, Repr

/-- The commands with their operands: one constructor per row of spec/opcode_table.json, in the order of R62. A
`natural` operand is an unbounded `Nat` (R63). `input` is the byte string `IN`. -/
inductive Instr where
  | qenc (r g b a : Byte)
  | qdec (code : Code)
  | tag (name : List Char)
  | hpack (count : Nat)
  | dpack (width height : U32) (nPixels : Nat) (nameTag : Tag)
  | ppack (pixels : List Pixel)
  | build (images : List Image)
  | hunpack (input : Bytes)
  | dunpack (input : Bytes) (off : Nat)
  | untag (nameTag : Tag)
  | punpack (input : Bytes) (off : Nat) (n : Nat)
  | parse (input : Bytes)
deriving DecidableEq, Repr

/-- The operand record: the host's operand buffers, one field per operand named in R31. A command reads the fields R31
lists for it and no others (notes/assumptions/5.md). -/
structure OperandRecord where
  r       : Byte
  g       : Byte
  b       : Byte
  a       : Byte
  code    : Code
  name    : List Char
  count   : Nat
  width   : U32
  height  : U32
  nPixels : Nat
  nameTag : Tag
  pixels  : List Pixel
  images  : List Image
  input   : Bytes
  off     : Nat
  n       : Nat
deriving DecidableEq, Repr

/-- Every operand zero or empty: the buffers of `State.reset` (DESIGN CHOICE, notes/assumptions/5.md). -/
def OperandRecord.zero : OperandRecord where
  r := 0#8
  g := 0#8
  b := 0#8
  a := 0#8
  code := 0#16
  name := []
  count := 0
  width := 0#32
  height := 0#32
  nPixels := 0
  nameTag := ⟨0#8, 0#8, 0#8, 0#8⟩
  pixels := []
  images := []
  input := []
  off := 0
  n := 0

/-- The names of the host's operand buffers: the operands of R31. -/
inductive OperandName where
  | r | g | b | a | code | name | count | width
  | height | nPixels | nameTag | pixels | images | input | off | n
deriving DecidableEq, Repr

/-- One host write to one operand buffer, with the contents it writes (20_memory.md R40, R56). -/
inductive OperandWrite where
  | r (v : Byte)
  | g (v : Byte)
  | b (v : Byte)
  | a (v : Byte)
  | code (v : Code)
  | name (v : List Char)
  | count (v : Nat)
  | width (v : U32)
  | height (v : U32)
  | nPixels (v : Nat)
  | nameTag (v : Tag)
  | pixels (v : List Pixel)
  | images (v : List Image)
  | input (v : Bytes)
  | off (v : Nat)
  | n (v : Nat)
deriving DecidableEq, Repr

/-- The input stream `IN` a command names, if it names one (R31, R40). -/
def Instr.inputStream : Instr → Option Bytes
  | .qenc _ _ _ _ => none
  | .qdec _ => none
  | .tag _ => none
  | .hpack _ => none
  | .dpack _ _ _ _ => none
  | .ppack _ => none
  | .build _ => none
  | .hunpack input => some input
  | .dunpack input _ => some input
  | .untag _ => none
  | .punpack input _ _ => some input
  | .parse input => some input

end Sys2Proof
end

