-- ==== Sys2Proof/WellFormed.lean ====
section
/-! DEFINITION. Which commands the block admits. The widths of R7 and the Unicode scalar values of a name are in the
types, so a value of a wrong width cannot be written (30_encoding.md R63: "The port width makes a wider value
impossible"). What remains is the bound on the input stream. -/
namespace Sys2Proof

/-- Is a stream of this many bytes within `MAX_IN_LEN` (20_memory.md R41)? -/
def Config.admitsLen (cfg : Config) (len : Nat) : Bool :=
  match cfg.maxInLen with
  | none => true
  | some m => decide (len ≤ m)

/-- A command is well formed for an instance when its input stream, if it has one, is within `MAX_IN_LEN` (R41). -/
def Instr.wellFormed (cfg : Config) (i : Instr) : Bool :=
  match i.inputStream with
  | none => true
  | some input => cfg.admitsLen input.length

end Sys2Proof
end

