-- ==== Sys2Proof/Decode.lean ====
section
/-! DEFINITION. The command word (30_encoding.md R60 to R63): the decoder, total on every word and operand record and
rejecting by name, and the encoder written from the same map. -/
namespace Sys2Proof

/-- Why a command word selects no command (R61). -/
inductive DecodeReject where
  /-- `cmd[7:4] != 0`, tested first. -/
  | reservedBits
  /-- `cmd[3:0]` is 0x0, 0xD, 0xE or 0xF. -/
  | reservedOp
deriving DecidableEq, Repr

/-- The field `OP`, bits [3:0] of the command word (R60). -/
def cmdOp (cmd : Byte) : BitVec 4 := cmd.extractLsb' 0 4

/-- The field `RSV`, bits [7:4] of the command word (R60). -/
def cmdRsv (cmd : Byte) : BitVec 4 := cmd.extractLsb' 4 4

/-- The command of an `OP` value, with its operands taken whole from the record (R62, R63, R31); `none` for the
reserved values. -/
def decodeOp (op : BitVec 4) (o : OperandRecord) : Option Instr :=
  match op.toNat with
  | 0x1 => some (.qenc o.r o.g o.b o.a)
  | 0x2 => some (.qdec o.code)
  | 0x3 => some (.tag o.name)
  | 0x4 => some (.hpack o.count)
  | 0x5 => some (.dpack o.width o.height o.nPixels o.nameTag)
  | 0x6 => some (.ppack o.pixels)
  | 0x7 => some (.build o.images)
  | 0x8 => some (.hunpack o.input)
  | 0x9 => some (.dunpack o.input o.off)
  | 0xA => some (.untag o.nameTag)
  | 0xB => some (.punpack o.input o.off o.n)
  | 0xC => some (.parse o.input)
  | _ => none

/-- The command-word check and dispatch of R61, in its order. -/
def decode (cmd : Byte) (o : OperandRecord) : Except DecodeReject Instr :=
  if cmdRsv cmd ≠ 0#4 then .error .reservedBits
  else
    match decodeOp (cmdOp cmd) o with
    | none => .error .reservedOp
    | some i => .ok i

/-- The command byte of each command (the map of R62). -/
def encodeWord : Instr → Byte
  | .qenc _ _ _ _ => 0x01#8
  | .qdec _ => 0x02#8
  | .tag _ => 0x03#8
  | .hpack _ => 0x04#8
  | .dpack _ _ _ _ => 0x05#8
  | .ppack _ => 0x06#8
  | .build _ => 0x07#8
  | .hunpack _ => 0x08#8
  | .dunpack _ _ => 0x09#8
  | .untag _ => 0x0A#8
  | .punpack _ _ _ => 0x0B#8
  | .parse _ => 0x0C#8

/-- The buffer a write writes. -/
def OperandWrite.target : OperandWrite → OperandName
  | .r _ => .r
  | .g _ => .g
  | .b _ => .b
  | .a _ => .a
  | .code _ => .code
  | .name _ => .name
  | .count _ => .count
  | .width _ => .width
  | .height _ => .height
  | .nPixels _ => .nPixels
  | .nameTag _ => .nameTag
  | .pixels _ => .pixels
  | .images _ => .images
  | .input _ => .input
  | .off _ => .off
  | .n _ => .n

/-- The buffers after a write: the one written holds what was written, whether or not it held it before, and every other
buffer what it held. -/
def OperandWrite.apply (w : OperandWrite) (o : OperandRecord) : OperandRecord :=
  match w with
  | .r v => { o with r := v }
  | .g v => { o with g := v }
  | .b v => { o with b := v }
  | .a v => { o with a := v }
  | .code v => { o with code := v }
  | .name v => { o with name := v }
  | .count v => { o with count := v }
  | .width v => { o with width := v }
  | .height v => { o with height := v }
  | .nPixels v => { o with nPixels := v }
  | .nameTag v => { o with nameTag := v }
  | .pixels v => { o with pixels := v }
  | .images v => { o with images := v }
  | .input v => { o with input := v }
  | .off v => { o with off := v }
  | .n v => { o with n := v }

/-- The host's writes of a command's operands: one for each operand R31 lists for the command, in its order. -/
def operandWrites : Instr → List OperandWrite
  | .qenc r g b a => [.r r, .g g, .b b, .a a]
  | .qdec code => [.code code]
  | .tag name => [.name name]
  | .hpack count => [.count count]
  | .dpack width height nPixels nameTag => [.width width, .height height, .nPixels nPixels, .nameTag nameTag]
  | .ppack pixels => [.pixels pixels]
  | .build images => [.images images]
  | .hunpack input => [.input input]
  | .dunpack input off => [.input input, .off off]
  | .untag nameTag => [.nameTag nameTag]
  | .punpack input off n => [.input input, .off off, .n n]
  | .parse input => [.input input]

/-- The names of a command's operands (R31). -/
def operandNames (i : Instr) : List OperandName := (operandWrites i).map OperandWrite.target

/-- The host's buffers after it has placed a command's operands in them: the fields R31 lists for the command are
written, every other buffer keeps what it held. -/
def placeOperands (i : Instr) (o : OperandRecord) : OperandRecord :=
  (operandWrites i).foldl (fun o w => w.apply o) o

/-- A command as the host sends it: its command byte and an operand record that holds its operands (R73: "The assembler
encodes each line as its command byte (rule R62) followed by the operand record"). -/
def encode (i : Instr) : Byte × OperandRecord := (encodeWord i, placeOperands i OperandRecord.zero)

/-- The command the decoder reads from a word of the opcode table. The table's rows are 8 bits and give the operand
record no bits, so the record is all zeros. -/
def decodeTableWord (nbits w : Nat) : Option Instr :=
  if nbits = 8 ∧ w < 256 then (decode (BitVec.ofNat 8 w) OperandRecord.zero).toOption else none

end Sys2Proof
end

