-- ==== Sys2Proof/Machine/State.lean ====
section
/-! DEFINITION. The state of the block and of the host beside it, as plain data (10_state.md), the error kinds and
reasons of 60_exceptions.md, the ways a step can stop, and the state after reset (70_reset_and_hazards.md R150). -/
namespace Sys2Proof.Machine

/-- The field `KIND` of `STATUS` (R25). There is no IOError: the block never raises it (60_exceptions.md R131). -/
inductive Kind where
  | ok
  | inputConstraint
  | format
  | illegalCommand
deriving DecidableEq, Repr

/-- The reasons of 60_exceptions.md R133, in the table's order. -/
inductive Reason where
  | tooManyImages
  | pixelCountMismatch
  | nonAsciiName
  | pixelCountOverflow
  | badMagic
  | truncDesc
  | truncPixels
  | prematureEos
  | codeRange
  | dimMismatch
  | reservedOp
  | reservedBits
deriving DecidableEq, Repr

/-- The error a command raises: its reason, and the register values R134 records with it. -/
structure CmdError where
  reason : Reason
  index  : BitVec 16
  offset : BitVec 64
deriving DecidableEq, Repr

/-- `PAYLOAD`, in the shape R31 gives each command. -/
inductive Payload where
  | code (code : Code)
  | color (pixel : Pixel)
  | nameTag (t : Tag)
  | hdr (bytes : Bytes)
  | desc (bytes : Bytes)
  | blk (bytes : Bytes)
  | rom (bytes : Bytes)
  | header (count : Byte) (cur : Nat)
  | descriptor (pixelCount : U32) (t : Tag) (width height : U32) (next : Nat)
  | name (bytes : Bytes)
  | pixels (px : List Pixel) (next : Nat)
  | records (recs : List Record)
deriving DecidableEq, Repr

/-- A command in progress: the command word the host wrote (R30) and the framer's working variables (R35). -/
structure Running where
  cmd  : Byte
  work : Work
deriving DecidableEq, Repr

/-- The four registers of the response (R25 to R28). -/
inductive ResponseReg where
  | status
  | errIndex
  | errOffset
  | payload
deriving DecidableEq, Repr

/-- What a host read of a response register returns. -/
inductive ReadValue where
  | status (v : Byte)
  | errIndex (v : BitVec 16)
  | errOffset (v : BitVec 64)
  | payload (v : Payload)
deriving DecidableEq, Repr

/-- What the host does (R20, R30, R33). The list of them in `State` is the run's parameter "the order in which the
host issues commands", and the places of `wait` in it are the run's parameter "the time each command takes"
(notes/assumptions/6.md). -/
inductive HostAction where
  /-- Write one operand buffer (R40, R56, R153 item 2). -/
  | write (w : OperandWrite)
  /-- Write a command word: issue the command, with the record in the buffers (R30). -/
  | issue (cmd : Byte)
  /-- Do nothing until the command in progress, if there is one, has completed. -/
  | wait
  /-- Read a response register (R157). -/
  | read (reg : ResponseReg)
  /-- Reset the block (70_reset_and_hazards.md R150). -/
  | reset
deriving DecidableEq, Repr

/-- The state. No field is a function. -/
structure State where
  /-- The configuration (R21). It is the instance's parameter set, which no step changes (notes/assumptions/1.md). -/
  cfg : Config
  /-- `STATUS` (R25), as the 8-bit word the host reads. -/
  status : Byte
  /-- `ERR_INDEX` (R26); `none` is the spec's "no value". -/
  errIndex : Option (BitVec 16)
  /-- `ERR_OFFSET` (R27); `none` is the spec's "no value". The spec's offset "none" is the value all ones. -/
  errOffset : Option (BitVec 64)
  /-- `PAYLOAD` (R28); `none` is the spec's "no value". -/
  payload : Option Payload
  /-- The command in progress with the working variables of R35; `none` between commands. -/
  inProgress : Option Running
  /-- The host's operand buffers (R31, R40). -/
  opnds : OperandRecord
  /-- What the host will do, first action first (R33). -/
  host : List HostAction
  /-- The value the host's last read returned. The model's own field (notes/assumptions/13.md). -/
  hostRead : Option ReadValue
  /-- How many free values the working variables have taken. The model's own field (notes/assumptions/4.md). -/
  freeCount : Nat
deriving DecidableEq, Repr

/-- There is no fault: an error of a command is a next state with the error in the response (60_exceptions.md R138),
and "No command has an undefined outcome" (R140). What the spec refuses is a `Refusal` (notes/assumptions/17.md). -/
inductive Fault where
deriving DecidableEq, Repr

/-- What the spec gives no meaning. -/
inductive Refusal where
  /-- Raised by a dispatch arm whose instruction has no meaning yet. Safe: nothing is claimed of such a run. No arm
  raises it now. -/
  | notModelled (mnemonic : String)
  /-- Raised by `issue` and by HUNPACK, DUNPACK, PUNPACK and PARSE on an `IN` longer than `MAX_IN_LEN`
  (20_memory.md R41, "is refused: it has no step"). Safe. -/
  | inputTooLong
  /-- Raised by a host read of `PAYLOAD`, `ERR_INDEX` or `ERR_OFFSET` when it holds no value (R28, R157). Safe. -/
  | readNoValue (reg : ResponseReg)
  /-- Raised by a host write to an operand buffer of the command in progress, whatever it writes (R156). Safe. -/
  | operandsWritten
deriving DecidableEq, Repr

/-- The state after reset (R150): `STATUS` is 0x00, the other response registers hold no value, and no command is in
progress. The configuration is `Config.default`; the buffers are the model's choice (notes/assumptions/5.md); the host
has nothing to do. -/
def State.reset : State where
  cfg := Config.default
  status := 0x00#8
  errIndex := none
  errOffset := none
  payload := none
  inProgress := none
  opnds := OperandRecord.zero
  host := []
  hostRead := none
  freeCount := 0

end Sys2Proof.Machine
end

