-- ==== Sys2Proof/Machine/Flags.lean ====
section
/-! DEFINITION. The word `STATUS`: its fields (10_state.md R25), its encoding (30_encoding.md R66) and the numbers of
the kinds and reasons (60_exceptions.md R133). The block has no other flags (10_state.md R24). -/
namespace Sys2Proof.Machine

/-- The number of a kind (R25, R133). -/
def Kind.code : Kind → BitVec 2
  | .ok => 0#2
  | .inputConstraint => 1#2
  | .format => 2#2
  | .illegalCommand => 3#2

/-- The kind a reason belongs to (R133). -/
def Reason.kind : Reason → Kind
  | .tooManyImages => .inputConstraint
  | .pixelCountMismatch => .inputConstraint
  | .nonAsciiName => .inputConstraint
  | .pixelCountOverflow => .inputConstraint
  | .badMagic => .format
  | .truncDesc => .format
  | .truncPixels => .format
  | .prematureEos => .format
  | .codeRange => .format
  | .dimMismatch => .format
  | .reservedOp => .illegalCommand
  | .reservedBits => .illegalCommand

/-- The number of a reason within its kind (R133). -/
def Reason.code : Reason → BitVec 4
  | .tooManyImages => 1#4
  | .pixelCountMismatch => 2#4
  | .nonAsciiName => 3#4
  | .pixelCountOverflow => 4#4
  | .badMagic => 1#4
  | .truncDesc => 2#4
  | .truncPixels => 3#4
  | .prematureEos => 4#4
  | .codeRange => 5#4
  | .dimMismatch => 6#4
  | .reservedOp => 1#4
  | .reservedBits => 2#4

/-- `STATUS = {REASON[3:0], BUSY, DONE, KIND[1:0]}` (R66). -/
def packStatus (reason : BitVec 4) (busy done : Bool) (kind : BitVec 2) : Byte :=
  reason ++ BitVec.ofBool busy ++ BitVec.ofBool done ++ kind

/-- The field `KIND`, bits [1:0]. -/
def statusKind (st : Byte) : BitVec 2 := st.extractLsb' 0 2

/-- The field `DONE`, bit [2]. -/
def statusDone (st : Byte) : Bool := st.getLsbD 2

/-- The field `BUSY`, bit [3]. -/
def statusBusy (st : Byte) : Bool := st.getLsbD 3

/-- The field `REASON`, bits [7:4]. -/
def statusReason (st : Byte) : BitVec 4 := st.extractLsb' 4 4

/-- `STATUS` at issue: `BUSY <- 1` "and the other fields unchanged" (R25). -/
def statusAtIssue (st : Byte) : Byte :=
  packStatus (statusReason st) true (statusDone st) (statusKind st)

/-- `STATUS` at a completion without error (R30). -/
def statusOk : Byte := packStatus 0#4 false true Kind.ok.code

/-- `STATUS` at a completion with an error (R30, R138). -/
def statusErr (reason : Reason) : Byte := packStatus reason.code false true reason.kind.code

end Sys2Proof.Machine
end

