-- ==== Sys2Proof/Machine/Operands.lean ====
section
/-! DEFINITION. Reading the input stream, byte order, and the error registers' values: the primitives of
00_scope.md R11 and 20_memory.md R43 to R45. -/
namespace Sys2Proof.Machine

/-- The little-endian natural of a byte string: `sum over j of b[j] * 256^j` (R11, R43). -/
def leNat : Bytes → Nat
  | [] => 0
  | b :: rest => b.toNat + 256 * leNat rest

/-- `MemReadBytes(addr, n)` (R11): the bytes of `IN` at `addr .. addr+n-1`. Each use stands behind the check
`addr + n <= len(IN)` (R41). -/
def memReadBytes (input : Bytes) (addr n : Nat) : Bytes := (input.drop addr).take n

/-- `MemRead(addr, n)` (R11): the same bytes as a little-endian natural. -/
def memRead (input : Bytes) (addr n : Nat) : Nat := leNat (memReadBytes input addr n)

/-- The stream as cells of memory: the byte at each offset, offsets in order. A byte string has one list form, so this
view adds nothing to it (notes/assumptions/10.md). -/
def streamCells (input : Bytes) (base : Nat) : List Host.Cell :=
  match input with
  | [] => []
  | b :: rest => (base, b) :: streamCells rest (base + 1)

/-- The canonical form of a list of cells: addresses strictly rising. An address that is not listed has no byte. -/
def Memory.wf : List Host.Cell → Bool
  | [] => true
  | [_] => true
  | x :: y :: rest => decide (x.1 < y.1) && Memory.wf (y :: rest)

/-- A `u8` at an offset. -/
def readU8 (input : Bytes) (addr : Nat) : Byte := BitVec.ofNat 8 (memRead input addr 1)

/-- A `u16` at an offset, aligned or not (R43, R51). -/
def readU16 (input : Bytes) (addr : Nat) : Code := BitVec.ofNat 16 (memRead input addr 2)

/-- A `u32` at an offset, aligned or not (R43, R51). -/
def readU32 (input : Bytes) (addr : Nat) : U32 := BitVec.ofNat 32 (memRead input addr 4)

/-- The tag at an offset: four single bytes, in string order (R44, R45). -/
def readTag (input : Bytes) (addr : Nat) : Tag :=
  ⟨readU8 input addr, readU8 input (addr + 1), readU8 input (addr + 2), readU8 input (addr + 3)⟩

/-- `le_16(v) = [v[7:0], v[15:8]]` (R43). -/
def le16 (v : Code) : Bytes := [v.extractLsb' 0 8, v.extractLsb' 8 8]

/-- `le_32(v) = [v[7:0], v[15:8], v[23:16], v[31:24]]` (R43). -/
def le32 (v : U32) : Bytes :=
  [v.extractLsb' 0 8, v.extractLsb' 8 8, v.extractLsb' 16 8, v.extractLsb' 24 8]

/-- The bytes of a tag in string order (R44). -/
def tagBytes (t : Tag) : Bytes := [t.b0, t.b1, t.b2, t.b3]

/-- `ERR_INDEX` of an error that belongs to no image or record (R26). -/
def noIndex : BitVec 16 := 0xFFFF#16

/-- `ERR_INDEX` of an image or record (R26). An index is below 255, so it fits. -/
def atIndex (k : Nat) : BitVec 16 := BitVec.ofNat 16 k

/-- `ERR_OFFSET` of an error that records no offset (R27, R134). -/
def noOffset : BitVec 64 := 0xFFFFFFFFFFFFFFFF#64

/-- `ERR_OFFSET` of an input-stream offset (R27). An offset that does not fit the register leaves a free value in it
(DESIGN CHOICE, notes/assumptions/3.md). -/
def atOffset (off : Nat) : BitVec 64 :=
  if off < 2 ^ 64 then BitVec.ofNat 64 off else Config.freeErrOffset off

/-- The index of pixel `(x, y)` of a `width`-wide grid (20_memory.md R48). -/
def gridIndex (width x y : Nat) : Nat := y * width + x

end Sys2Proof.Machine
end

