-- ==== Sys2Proof/Machine/Ops.lean ====
section
/-! DEFINITION. The shared operations on the state: issue, completion with and without an error, reset, and the host's
reads and writes. -/
namespace Sys2Proof.Machine

/-- What a step of this machine answers. -/
abbrev Result := Host.Outcome State Fault Refusal

/-- Completion of a command without error: the `Ok(v)` case of R30. -/
def completeOk (v : Payload) (s : State) : State :=
  { s with status := statusOk, payload := some v, errIndex := none, errOffset := none, inProgress := none }

/-- Raising an error: the `Err` case of R30, which 60_exceptions.md R138 calls the block's "trap entry". It records the
error in the response, discards everything else of the command and returns the block to idle. There is no handler
and no return from an error (R139): the next command starts from idle. -/
def raiseError (e : CmdError) (s : State) : State :=
  { s with status := statusErr e.reason, payload := none, errIndex := some e.index, errOffset := some e.offset,
           inProgress := none }

/-- Completion with a command's outcome (R30): the only way a command changes the state. -/
def complete (outcome : Except CmdError Payload) (s : State) : State :=
  match outcome with
  | .ok v => completeOk v s
  | .error e => raiseError e s

/-- A command that reads `IN` has a step only when `IN` is within `MAX_IN_LEN` (20_memory.md R41). -/
def withInput (input : Bytes) (outcome : Except CmdError Payload) (s : State) : Result :=
  if s.cfg.admitsLen input.length then .next (complete outcome s) else .refused .inputTooLong

/-- The reason of a command word that selects no command (30_encoding.md R61). -/
def rejectReason : DecodeReject → Reason
  | .reservedBits => .reservedBits
  | .reservedOp => .reservedOp

/-- The completion of a command word that selects no command: IllegalCommand, with no index and no offset (R61, R136).
No operand is read. -/
def rejectCommand (why : DecodeReject) (s : State) : State :=
  raiseError ⟨rejectReason why, noIndex, noOffset⟩ s

/-- The command a word and the buffers make, or why there is none: the block's fetch. -/
def fetch (cmd : Byte) (s : State) : Except DecodeReject Instr := decode cmd s.opnds

/-- May the block take this command word with these buffers? Only an input stream beyond `MAX_IN_LEN` is in the way
(R41); an illegal word is taken, and completes with an error (R61). -/
def admits (cmd : Byte) (s : State) : Bool :=
  match fetch cmd s with
  | .ok i => i.wellFormed s.cfg
  | .error _ => true

/-- The working variables that have one value at every issue: `cur <- 0` and `OUT <- []` (R35, 20_memory.md R42), and no
record decoded so far. The others keep the free values they are given. -/
def workAtIssue (free : Work) : Work := { free with cur := 0, out := [], recs := [] }

/-- The working variables of a command at issue, "fixed by each command's pseudocode" (R35). BUILD counts its images,
`N <- len(images)` (R99), and an index the pseudocode loops over is 0, the loop's start (R97, R99, R116, R119; DEDUCED).
A variable that it sets later or not at all has a free value (93_implementation_defined.md U19; notes/assumptions/4.md). -/
def commandWork (i : Instr) (free : Work) : Work :=
  match i with
  | .qenc _ _ _ _ => workAtIssue free
  | .qdec _ => workAtIssue free
  | .tag _ => workAtIssue free
  | .hpack _ => workAtIssue free
  | .dpack _ _ _ _ => workAtIssue free
  | .ppack _ => { workAtIssue free with i := 0 }
  | .build images => { workAtIssue free with n := images.length, k := 0, i := 0 }
  | .hunpack _ => workAtIssue free
  | .dunpack _ _ => workAtIssue free
  | .untag _ => workAtIssue free
  | .punpack _ _ _ => { workAtIssue free with i := 0 }
  | .parse _ => { workAtIssue free with k := 0, i := 0 }

/-- The working variables an issue creates (R35). A word that selects no command has no pseudocode to fix more of them
(R61). -/
def initialWork (cmd : Byte) (s : State) : Work :=
  match fetch cmd s with
  | .ok i => commandWork i (Config.freeWork s.freeCount)
  | .error _ => workAtIssue (Config.freeWork s.freeCount)

/-- The state changes of an issue (R30): `BUSY <- 1`, the previous response ended (R158), the working variables
created (R35). -/
def startCommand (cmd : Byte) (s : State) : State :=
  { s with status := statusAtIssue s.status, payload := none, errIndex := none, errOffset := none,
           inProgress := some ⟨cmd, initialWork cmd s⟩, freeCount := s.freeCount + 1 }

/-- The host issues a command to an idle block (R30). -/
def issue (cmd : Byte) (s : State) : Result :=
  if admits cmd s then .next (startCommand cmd s) else .refused .inputTooLong

/-- Time passes inside a command, without completing it: the working variables may have any value
(93_implementation_defined.md U19). Between commands nothing changes (60_exceptions.md R148). -/
def passTime (s : State) : State :=
  match s.inProgress with
  | none => s
  | some r => { s with inProgress := some { r with work := Config.freeWork s.freeCount }, freeCount := s.freeCount + 1 }

/-- Does the response hold a value that may be read now: `BUSY` = 0 and `DONE` = 1 (R157)? -/
def responseReady (s : State) : Bool := !statusBusy s.status && statusDone s.status

/-- A host read that found a value: the host has it, and time passes. -/
def readReturns (v : ReadValue) (s : State) : Result := .next (passTime { s with hostRead := some v })

/-- A host read of a response register. `STATUS` can be read at any time, and the others only when they hold a value
(R28, R157). Reading changes no register. -/
def readReg (reg : ResponseReg) (s : State) : Result :=
  match reg with
  | .status => readReturns (.status s.status) s
  | .errIndex =>
    match responseReady s, s.errIndex with
    | true, some v => readReturns (.errIndex v) s
    | _, _ => .refused (.readNoValue .errIndex)
  | .errOffset =>
    match responseReady s, s.errOffset with
    | true, some v => readReturns (.errOffset v) s
    | _, _ => .refused (.readNoValue .errOffset)
  | .payload =>
    match responseReady s, s.payload with
    | true, some v => readReturns (.payload v) s
    | _, _ => .refused (.readNoValue .payload)

/-- Is this buffer an operand of the command in progress (R156)? A rejected command word has none: it "reads no operand"
(30_encoding.md R61). -/
def inUse (buf : OperandName) (s : State) : Bool :=
  match s.inProgress with
  | none => false
  | some r =>
    match fetch r.cmd s with
    | .error _ => false
    | .ok i => (operandNames i).contains buf

/-- A host write to an operand buffer. "Between issue and completion, the host must not write `IN` or any operand list of
the command" (R156): such a write is refused, even if it writes what the buffer holds. A write to any other buffer is
taken, and the next command sees it (20_memory.md R56). -/
def writeBuffer (w : OperandWrite) (s : State) : Result :=
  if inUse w.target s then .refused .operandsWritten else .next (passTime { s with opnds := w.apply s.opnds })

/-- Reset (R150): the response state takes its reset values and a command in progress is abandoned. The configuration
and the host's buffers are not changed. -/
def resetBlock (s : State) : State :=
  { s with status := 0x00#8, errIndex := none, errOffset := none, payload := none, inProgress := none }

end Sys2Proof.Machine
end

