-- ==== Sys2Proof/Machine/Quantizer.lean ====
section
/-! DEFINITION. The quantizer: QENC and QDEC (40_color_codec.md). -/
namespace Sys2Proof.Machine

/-- `bucket(c) = c / 32` (R80). -/
def bucket (c : Byte) : Nat := c.toNat / Config.bucketDiv

/-- `floor32(q) = q * 32` (R80). -/
def floor32 (q : Nat) : Nat := q * Config.bucketDiv

/-- The code of a bucket triple in closed form, `1 + 64*rb + 8*gb + bb` (R88). -/
def opaqueCode (rb gb bb : Nat) : Nat := 1 + rb * 64 + gb * 8 + bb

/-- `qenc` (R81), computed exactly and then stored in 16 bits. -/
def qenc (p : Pixel) : Code :=
  if p.a = 0#8 then 0#16 else BitVec.ofNat 16 (opaqueCode (bucket p.r) (bucket p.g) (bucket p.b))

/-- The number `DECODE_MAX` is (00_scope.md R6). -/
def decodeLimit : DecodeMax → Nat
  | .max512 => 512
  | .max511 => 511

/-- A channel value from a bucket. -/
def channelOf (q : Nat) : Byte := BitVec.ofNat 8 (floor32 q)

/-- The color of a code that is in range and not 0: the last five lines of `qdec` (R83). -/
def opaqueColor (code : Nat) : Pixel where
  r := channelOf ((code - 1) / 64)
  g := channelOf ((code - 1) % 64 / 8)
  b := channelOf ((code - 1) % 8)
  a := 255#8

/-- `qdec` (R83): the caller supplies the error registers' values. -/
def qdec (limit : DecodeMax) (code : Code) (idx : BitVec 16) (off : BitVec 64) : Except CmdError Pixel :=
  if decodeLimit limit < code.toNat then .error ⟨.codeRange, idx, off⟩
  else if code = 0#16 then .ok ⟨0#8, 0#8, 0#8, 0#8⟩
  else .ok (opaqueColor code.toNat)

/-- QENC (R81). -/
def execQenc (r g b a : Byte) (s : State) : Result :=
  .next (complete (.ok (.code (qenc ⟨r, g, b, a⟩))) s)

/-- QDEC (R83). -/
def execQdec (code : Code) (s : State) : Result :=
  .next (complete ((qdec s.cfg.decodeMax code noIndex noOffset).map Payload.color) s)

end Sys2Proof.Machine
end

