-- ==== Sys2Proof/Machine/ContainerEncode.lean ====
section
/-! DEFINITION. The container encode path: TAG, HPACK, DPACK, PPACK and BUILD (41_container_encode.md). -/
namespace Sys2Proof.Machine

/-- Is a character ASCII (R90, 93_implementation_defined.md G2)? -/
def isAscii (c : Char) : Bool := decide (c.toNat ≤ 0x7F)

/-- Character `j` of a name encoded as ASCII, or the padding byte where the name has ended (R90). -/
def tagChar (name : List Char) (j : Nat) : Byte :=
  match name[j]? with
  | some c => BitVec.ofNat 8 c.toNat
  | none => Config.pad

/-- `tag_of` (R90): the first 4 characters are checked and no others, and the tag is padded on the right. -/
def tagOf (name : List Char) (idx : BitVec 16) : Except CmdError Tag :=
  if (name.take Config.nameLen).all isAscii then
    .ok ⟨tagChar name 0, tagChar name 1, tagChar name 2, tagChar name 3⟩
  else .error ⟨.nonAsciiName, idx, noOffset⟩

/-- `hpack` (R93). -/
def hpack (cfg : Config) (count : Nat) : Except CmdError Bytes :=
  if Config.maxImages < count then .error ⟨.tooManyImages, noIndex, noOffset⟩
  else .ok (tagBytes cfg.magic ++ [BitVec.ofNat 8 count])

/-- `count_check` (R94): the product is exact, and overflow is tested before mismatch. -/
def countCheck (w h : U32) (n : Nat) (idx : BitVec 16) : Except CmdError U32 :=
  if Config.maxU32 < w.toNat * h.toNat then .error ⟨.pixelCountOverflow, idx, noOffset⟩
  else if w.toNat * h.toNat ≠ n then .error ⟨.pixelCountMismatch, idx, noOffset⟩
  else .ok (BitVec.ofNat 32 (w.toNat * h.toNat))

/-- `desc` (R94): the 16 bytes of 30_encoding.md R68. -/
def descBytes (p : U32) (t : Tag) (w h : U32) : Bytes := le32 p ++ tagBytes t ++ le32 w ++ le32 h

/-- `ppack` (R97): element-wise, in order (R98). -/
def ppack (pixels : List Pixel) : Bytes := pixels.flatMap fun p => le16 (qenc p)

/-- The record of image `k`: steps 3a to 3d of BUILD (R99). -/
def buildRecord (k : Nat) (im : Image) : Except CmdError Bytes := do
  let p ← countCheck im.width im.height im.pixels.length (atIndex k)
  let t ← tagOf im.name (atIndex k)
  return descBytes p t im.width im.height ++ ppack im.pixels

/-- The loop of BUILD from image `k` on, in input order (R99, R102). The first failing image ends it (R101). -/
def buildRecords : Nat → List Image → Except CmdError Bytes
  | _, [] => .ok []
  | k, im :: rest => do
    let first ← buildRecord k im
    let tail ← buildRecords (k + 1) rest
    return first ++ tail

/-- BUILD as a function (R99): the count check comes before any image is examined. -/
def build (cfg : Config) (images : List Image) : Except CmdError Bytes := do
  let header ← hpack cfg images.length
  let body ← buildRecords 0 images
  return header ++ body

/-- DPACK as a function (R95). -/
def dpack (w h : U32) (n : Nat) (t : Tag) : Except CmdError Bytes := do
  let p ← countCheck w h n noIndex
  return descBytes p t w h

/-- TAG (R91). -/
def execTag (name : List Char) (s : State) : Result :=
  .next (complete ((tagOf name noIndex).map Payload.nameTag) s)

/-- HPACK (R93). -/
def execHpack (count : Nat) (s : State) : Result :=
  .next (complete ((hpack s.cfg count).map Payload.hdr) s)

/-- DPACK (R95). -/
def execDpack (width height : U32) (nPixels : Nat) (nameTag : Tag) (s : State) : Result :=
  .next (complete ((dpack width height nPixels nameTag).map Payload.desc) s)

/-- PPACK (R97). -/
def execPpack (pixels : List Pixel) (s : State) : Result :=
  .next (complete (.ok (.blk (ppack pixels))) s)

/-- BUILD (R99). -/
def execBuild (images : List Image) (s : State) : Result :=
  .next (complete ((build s.cfg images).map Payload.rom) s)

end Sys2Proof.Machine
end

