-- ==== Sys2Proof/Machine/ContainerDecode.lean ====
section
/-! DEFINITION. The container decode path: HUNPACK, DUNPACK, UNTAG, PUNPACK and PARSE (42_container_decode.md). -/
namespace Sys2Proof.Machine

/-- `hunpack` (R110): the image count, and the offset 5 at which the records begin. -/
def hunpack (cfg : Config) (input : Bytes) : Except CmdError (Byte × Nat) :=
  if input.length < 4 then .error ⟨.badMagic, noIndex, atOffset 0⟩
  else if memReadBytes input 0 4 ≠ tagBytes cfg.magic then .error ⟨.badMagic, noIndex, atOffset 0⟩
  else if input.length < Config.hdrLen then .error ⟨.prematureEos, noIndex, atOffset 4⟩
  else .ok (readU8 input 4, Config.hdrLen)

/-- The fields of a descriptor (30_encoding.md R68). -/
structure Descriptor where
  pixelCount : U32
  nameTag    : Tag
  width      : U32
  height     : U32
deriving DecidableEq, Repr

/-- The descriptor at an offset, field by field at its own width (20_memory.md R45). -/
def readDescriptor (input : Bytes) (off : Nat) : Descriptor where
  pixelCount := readU32 input off
  nameTag := readTag input (off + 4)
  width := readU32 input (off + 8)
  height := readU32 input (off + 12)

/-- `pc != w * h` with the exact product (R112). -/
def Descriptor.mismatched (d : Descriptor) : Bool :=
  d.pixelCount.toNat != d.width.toNat * d.height.toNat

/-- `dunpack` (R112): the fields, and the offset after the descriptor. -/
def dunpack (cfg : Config) (input : Bytes) (off : Nat) (idx : BitVec 16) : Except CmdError (Descriptor × Nat) :=
  if input.length < off + Config.descLen then .error ⟨.truncDesc, idx, atOffset off⟩
  else if cfg.dimCheck = .reject ∧ (readDescriptor input off).mismatched then
    .error ⟨.dimMismatch, idx, atOffset off⟩
  else .ok (readDescriptor input off, off + Config.descLen)

/-- How many of the first `n` bytes of a tag are left when trailing padding is removed: the loop of `untag` (R114). -/
def keptLen (bytes : Bytes) : Nat → Nat
  | 0 => 0
  | n + 1 => if bytes[n]? = some Config.pad then keptLen bytes n else n + 1

/-- `untag` (R114). -/
def untag (t : Tag) : Bytes := (tagBytes t).take (keptLen (tagBytes t) Config.nameLen)

/-- The loop of `punpack` from code `i` on, for `m` codes (R116). The first code out of range ends it. -/
def unpackCodes (limit : DecodeMax) (input : Bytes) (off : Nat) (idx : BitVec 16) :
    (m i : Nat) → Except CmdError (List Pixel)
  | 0, _ => .ok []
  | m + 1, i => do
    let p ← qdec limit (readU16 input (off + Config.codeLen * i)) idx (atOffset (off + Config.codeLen * i))
    let rest ← unpackCodes limit input off idx m (i + 1)
    return p :: rest

/-- `punpack` (R116): the whole block is checked before any code is decoded. -/
def punpack (cfg : Config) (input : Bytes) (off n : Nat) (idx : BitVec 16) : Except CmdError (List Pixel × Nat) :=
  if input.length < off + Config.codeLen * n then .error ⟨.truncPixels, idx, atOffset off⟩
  else (unpackCodes cfg.decodeMax input off idx n 0).map fun px => (px, off + Config.codeLen * n)

/-- Record `k` at the cursor: steps 3a to 3d of PARSE (R119), and the cursor after it. -/
def parseRecord (cfg : Config) (input : Bytes) (k cur : Nat) : Except CmdError (Record × Nat) := do
  let (d, cur₁) ← dunpack cfg input cur (atIndex k)
  let (px, cur₂) ← punpack cfg input cur₁ d.pixelCount.toNat (atIndex k)
  return (⟨d.nameTag, untag d.nameTag, d.width, d.height, px⟩, cur₂)

/-- The loop of PARSE for `m` records from record `k` on (R119). The first failing record ends it (R121), and nothing
after the last record is read (R122). -/
def parseRecords (cfg : Config) (input : Bytes) : (m k cur : Nat) → Except CmdError (List Record)
  | 0, _, _ => .ok []
  | m + 1, k, cur => do
    let (rec₀, next) ← parseRecord cfg input k cur
    let rest ← parseRecords cfg input m (k + 1) next
    return rec₀ :: rest

/-- PARSE as a function (R119). -/
def parse (cfg : Config) (input : Bytes) : Except CmdError (List Record) := do
  let (n, cur) ← hunpack cfg input
  parseRecords cfg input n.toNat 0 cur

/-- Pixel `(x, y)` of a record, when the record is a grid and the point lies in it (R123). -/
def pixelAt (rec₀ : Record) (x y : Nat) : Option Pixel :=
  if rec₀.pixels.length = rec₀.width.toNat * rec₀.height.toNat ∧ x < rec₀.width.toNat ∧ y < rec₀.height.toNat then
    rec₀.pixels[gridIndex rec₀.width.toNat x y]?
  else none

/-- HUNPACK (R111). -/
def execHunpack (input : Bytes) (s : State) : Result :=
  withInput input ((hunpack s.cfg input).map fun r => Payload.header r.1 r.2) s

/-- DUNPACK (R113). -/
def execDunpack (input : Bytes) (off : Nat) (s : State) : Result :=
  withInput input ((dunpack s.cfg input off noIndex).map fun r =>
    Payload.descriptor r.1.pixelCount r.1.nameTag r.1.width r.1.height r.2) s

/-- UNTAG (R115). -/
def execUntag (nameTag : Tag) (s : State) : Result :=
  .next (complete (.ok (.name (untag nameTag))) s)

/-- PUNPACK (R117). -/
def execPunpack (input : Bytes) (off n : Nat) (s : State) : Result :=
  withInput input ((punpack s.cfg input off n noIndex).map fun r => Payload.pixels r.1 r.2) s

/-- PARSE (R119). -/
def execParse (input : Bytes) (s : State) : Result :=
  withInput input ((parse s.cfg input).map Payload.records) s

end Sys2Proof.Machine
end

