-- ==== Sys2Proof/Machine/Dispatch.lean ====
section
/-! DEFINITION. The dispatch: one arm per command, in the order of 30_encoding.md R62. -/
namespace Sys2Proof.Machine

def exec (i : Instr) (s : State) : Host.Outcome State Fault Refusal :=
  match i with
  -- the quantizer (40_color_codec.md)
  | .qenc r g b a => Sys2Proof.Machine.execQenc r g b a s
  | .qdec code => Sys2Proof.Machine.execQdec code s
  -- the container encode path (41_container_encode.md)
  | .tag name => Sys2Proof.Machine.execTag name s
  | .hpack count => Sys2Proof.Machine.execHpack count s
  | .dpack width height nPixels nameTag => Sys2Proof.Machine.execDpack width height nPixels nameTag s
  | .ppack pixels => Sys2Proof.Machine.execPpack pixels s
  | .build images => Sys2Proof.Machine.execBuild images s
  -- the container decode path (42_container_decode.md)
  | .hunpack input => Sys2Proof.Machine.execHunpack input s
  | .dunpack input off => Sys2Proof.Machine.execDunpack input off s
  | .untag nameTag => Sys2Proof.Machine.execUntag nameTag s
  | .punpack input off n => Sys2Proof.Machine.execPunpack input off n s
  | .parse input => Sys2Proof.Machine.execParse input s

end Sys2Proof.Machine
end

