-- ==== Sys2Proof/Machine/Step.lean ====
section
/-! DEFINITION. One step: the host's next action, or the completion of the command in progress. -/
namespace Sys2Proof.Machine

/-- The command in progress completes, as one atomic transaction (10_state.md R30): its word is checked (R61) and its
rule is run (R32). With no command in progress the block is idle, "and idle changes no state" (60_exceptions.md
R148). -/
def finishCommand (s : State) : Host.Outcome State Fault Refusal :=
  match s.inProgress with
  | none => .next s
  | some r =>
    match fetch r.cmd s with
    | .ok i => exec i s
    | .error why => .next (rejectCommand why s)

/-- One step of the system of R20. A host with nothing to do, and a host that waits, let the command in progress
complete. An issue while `BUSY` = 1 "is not admitted: the model gives it no step, so the host is stuck until
completion" (70_reset_and_hazards.md R155): the action stays first in the list, and the step that is taken is the
completion (notes/assumptions/7.md). -/
def step (s : State) : Host.Outcome State Fault Refusal :=
  match s.host with
  | [] => finishCommand s
  | .wait :: rest => finishCommand { s with host := rest }
  | .issue cmd :: rest => if statusBusy s.status then finishCommand s else issue cmd { s with host := rest }
  | .write w :: rest => writeBuffer w { s with host := rest }
  | .read reg :: rest => readReg reg { s with host := rest }
  | .reset :: rest => .next (resetBlock { s with host := rest })

/-- `s` with a command issued from outside: the word of the opcode table is the command word in progress, its operand
record is all zeros, and the host's next action is to wait, so that the very next step performs the command
(notes/assumptions/19.md). -/
def State.withFetchWord (s : State) (nbits w : Nat) : State :=
  if nbits = 8 then
    { startCommand (BitVec.ofNat 8 w) { s with opnds := OperandRecord.zero } with host := .wait :: s.host }
  else s

end Sys2Proof.Machine
end

