-- ==== Sys2Proof/Machine/Assembler.lean ====
section
/-! DEFINITION. The assembler of 30_encoding.md R73, from the parsed form of a line to what the host sends. R73 gives the
operand forms and no character grammar, so a line here is its mnemonic and its operands (notes/assumptions/20.md). -/
namespace Sys2Proof.Machine

/-- The mnemonics of R62. -/
inductive Mnemonic where
  | qenc | qdec | tag | hpack | dpack | ppack | build | hunpack | dunpack | untag | punpack | parse
deriving DecidableEq, Repr

/-- One item of a byte string in square brackets: a hex byte, or the symbol `MAGIC`. -/
inductive AsmByte where
  | hex (b : Byte)
  | magic
deriving DecidableEq, Repr

/-- A pixel tuple `(r,g,b,a)` as numbers. -/
structure AsmPixel where
  r : Nat
  g : Nat
  b : Nat
  a : Nat
deriving DecidableEq, Repr

/-- An image tuple: name, width, height, pixels. -/
structure AsmImage where
  name   : List Char
  width  : Nat
  height : Nat
  pixels : List AsmPixel
deriving DecidableEq, Repr

/-- The operand forms of R73. -/
inductive AsmOperand where
  | number (n : Nat)
  | string (chars : List Char)
  | byteString (items : List AsmByte)
  | pixels (px : List AsmPixel)
  | images (ims : List AsmImage)
  | buffer (name : List Char)
  | out
deriving DecidableEq, Repr

/-- A line: a command, or the definition `.bytes NAME = [..]`. -/
inductive AsmLine where
  | command (m : Mnemonic) (operands : List AsmOperand)
  | bytesDef (name : List Char) (items : List AsmByte)
deriving DecidableEq, Repr

/-- What a line's symbols stand for: `MAGIC`, the buffers defined so far (latest first), and `OUT`, the payload of the
previous command when that is a byte string. -/
structure AsmEnv where
  magic   : Tag
  buffers : List (List Char × Bytes)
  out     : Option Bytes
deriving DecidableEq, Repr

/-- The bytes a byte string stands for. -/
def asmBytes (env : AsmEnv) (items : List AsmByte) : Bytes :=
  items.flatMap fun item =>
    match item with
    | .hex b => [b]
    | .magic => tagBytes env.magic

/-- A number at a port of `w` bits: "The port width makes a wider value impossible" (R63). -/
def asmPort (w n : Nat) : Option (BitVec w) := if n < 2 ^ w then some (BitVec.ofNat w n) else none

/-- A pixel tuple's pixel. -/
def asmPixel (p : AsmPixel) : Option Pixel := do
  return ⟨← asmPort 8 p.r, ← asmPort 8 p.g, ← asmPort 8 p.b, ← asmPort 8 p.a⟩

/-- An image tuple's image. -/
def asmImage (im : AsmImage) : Option Image := do
  return ⟨im.name, ← asmPort 32 im.width, ← asmPort 32 im.height, ← im.pixels.mapM asmPixel⟩

/-- The byte string an `IN` operand stands for: written out, by buffer name, or `OUT`. -/
def asmStream (env : AsmEnv) : AsmOperand → Option Bytes
  | .byteString items => some (asmBytes env items)
  | .buffer name => env.buffers.lookup name
  | .out => env.out
  | .number _ => none
  | .string _ => none
  | .pixels _ => none
  | .images _ => none

/-- The four bytes a tag operand stands for. -/
def asmTag (env : AsmEnv) (operand : AsmOperand) : Option Tag := do
  match ← asmStream env operand with
  | [b0, b1, b2, b3] => some ⟨b0, b1, b2, b3⟩
  | _ => none

/-- The command of a line: the forms per command of R73. -/
def asmCommand (env : AsmEnv) (m : Mnemonic) (operands : List AsmOperand) : Option Instr :=
  match m, operands with
  | .qenc, [.number r, .number g, .number b, .number a] =>
      return .qenc (← asmPort 8 r) (← asmPort 8 g) (← asmPort 8 b) (← asmPort 8 a)
  | .qdec, [.number code] => return .qdec (← asmPort 16 code)
  | .tag, [.string name] => some (.tag name)
  | .hpack, [.number count] => some (.hpack count)
  | .dpack, [.number w, .number h, .number n, t] =>
      return .dpack (← asmPort 32 w) (← asmPort 32 h) n (← asmTag env t)
  | .ppack, [.pixels px] => return .ppack (← px.mapM asmPixel)
  | .build, [.images ims] => return .build (← ims.mapM asmImage)
  | .hunpack, [input] => return .hunpack (← asmStream env input)
  | .dunpack, [input, .number off] => return .dunpack (← asmStream env input) off
  | .untag, [t] => return .untag (← asmTag env t)
  | .punpack, [input, .number off, .number n] => return .punpack (← asmStream env input) off n
  | .parse, [input] => return .parse (← asmStream env input)
  | _, _ => none

/-- What the host does for a command line: it places the operand record and writes the command byte (R73). -/
def assemble (env : AsmEnv) (m : Mnemonic) (operands : List AsmOperand) : Option (List HostAction) := do
  let i ← asmCommand env m operands
  return (operandWrites i).map .write ++ [.issue (encodeWord i)]

/-- The symbols after a `.bytes` line. -/
def asmDefine (env : AsmEnv) (name : List Char) (items : List AsmByte) : AsmEnv :=
  { env with buffers := (name, asmBytes env items) :: env.buffers }

/-- The byte string `OUT` stands for after a command with this response. -/
def asmOut (payload : Option Payload) : Option Bytes :=
  match payload with
  | some (.hdr bytes) => some bytes
  | some (.desc bytes) => some bytes
  | some (.blk bytes) => some bytes
  | some (.rom bytes) => some bytes
  | some (.name bytes) => some bytes
  | some (.nameTag t) => some (tagBytes t)
  | some (.code _) => none
  | some (.color _) => none
  | some (.header _ _) => none
  | some (.descriptor _ _ _ _ _) => none
  | some (.pixels _ _) => none
  | some (.records _) => none
  | none => none

/-- A line: the host actions it stands for, and the symbols after it. A command's payload becomes `OUT` only once the
host has read it, so the caller sets `out` from `asmOut`. -/
def assembleLine (env : AsmEnv) : AsmLine → Option (List HostAction × AsmEnv)
  | .command m operands => do return (← assemble env m operands, env)
  | .bytesDef name items => some ([], asmDefine env name items)

end Sys2Proof.Machine
end

