-- ==== Sys2Proof/Safety.lean ====
section
/-! DEFINITION. The terms claims are made in: the invariant of the machine, what it is for a command to complete with
and without an error, when the host keeps its duties, and the grammar of a container (20_memory.md R46, R47). None of
these takes part in a step. -/
namespace Sys2Proof.Machine

/-- The values `STATUS` has after reset and after a completed command: the table of 30_encoding.md R66. -/
def idleStatuses : List Byte :=
  [0x00#8, 0x04#8, 0x15#8, 0x25#8, 0x35#8, 0x45#8, 0x16#8, 0x26#8, 0x36#8, 0x46#8, 0x56#8, 0x66#8, 0x17#8, 0x27#8]

/-- Is a `STATUS` value one of the table's, or one of them with `BUSY` set (R66)? -/
def statusLegal (st : Byte) : Bool := idleStatuses.contains (st &&& 0xF7#8)

/-- The lengths R31 gives the payloads that are byte strings, and the cursor it gives HUNPACK's. -/
def Payload.shaped : Payload → Bool
  | .code c => decide (c.toNat ≤ 512)
  | .color p => decide (p.a = 0#8 ∨ p.a = 255#8)
  | .nameTag _ => true
  | .hdr bytes => bytes.length == 5
  | .desc bytes => bytes.length == 16
  | .blk bytes => bytes.length % 2 == 0
  | .rom bytes => decide (5 ≤ bytes.length)
  | .header _ cur => cur == 5
  | .descriptor _ _ _ _ next => decide (16 ≤ next)
  | .name bytes => decide (bytes.length ≤ 4)
  | .pixels px next => decide (2 * px.length ≤ next)
  | .records recs => decide (recs.length ≤ 255)

/-- The invariant every step keeps. -/
structure State.Inv (s : State) : Prop where
  /-- The configuration is one the spec permits (00_scope.md R6). -/
  cfgOk : s.cfg.wf = true
  /-- `BUSY` is 1 exactly while a command is in progress (R25). -/
  busyIff : statusBusy s.status = s.inProgress.isSome
  /-- `STATUS` holds a value of R66's table. -/
  statusOk : statusLegal s.status = true
  /-- `PAYLOAD` has a value only when `DONE` = 1, `BUSY` = 0 and `KIND` = 0 (R28), and then it has one (R30). -/
  payloadIff : s.payload.isSome =
    (statusDone s.status && !statusBusy s.status && decide (statusKind s.status = 0#2))
  /-- `ERR_INDEX` holds a value after an error and at no other time (R26). -/
  errIndexIff : s.errIndex.isSome =
    (statusDone s.status && !statusBusy s.status && decide (statusKind s.status ≠ 0#2))
  /-- `ERR_OFFSET` holds a value after an error and at no other time (R27). -/
  errOffsetIff : s.errOffset.isSome =
    (statusDone s.status && !statusBusy s.status && decide (statusKind s.status ≠ 0#2))
  /-- The payload has the shape of R31. -/
  payloadShaped : ∀ v, s.payload = some v → v.shaped = true
  /-- A command in progress was admitted (20_memory.md R41). -/
  admitted : ∀ r, s.inProgress = some r → admits r.cmd s = true

/-- What a command leaves alone: the configuration (R21), every host buffer, the input stream among them (20_memory.md
R41, R59), and the host itself. -/
structure HostUnchanged (s t : State) : Prop where
  cfg       : t.cfg = s.cfg
  opnds     : t.opnds = s.opnds
  host      : t.host = s.host
  hostRead  : t.hostRead = s.hostRead
  freeCount : t.freeCount = s.freeCount

/-- `t` is `s` after a command completed without error and with this payload (R30), and nothing else changed. -/
structure CompletesOk (s t : State) (v : Payload) : Prop where
  status     : t.status = 0x04#8
  payload    : t.payload = some v
  errIndex   : t.errIndex = none
  errOffset  : t.errOffset = none
  inProgress : t.inProgress = none
  frame      : HostUnchanged s t

/-- `t` is `s` after a command raised an error that left these values in `STATUS`, `ERR_INDEX` and `ERR_OFFSET`
(60_exceptions.md R138), and nothing else changed. -/
structure CompletesErr (s t : State) (st : Byte) (idx : BitVec 16) (off : BitVec 64) : Prop where
  status     : t.status = st
  payload    : t.payload = none
  errIndex   : t.errIndex = some idx
  errOffset  : t.errOffset = some off
  inProgress : t.inProgress = none
  frame      : HostUnchanged s t

/-- `perform` (R32): a command's outcome as a total function of the configuration and the command with its operands.
The meanings of `exec` are held against it by `Sys2Proof.Laws.exec_eq_perform`. -/
def perform (cfg : Config) : Instr → Except CmdError Payload
  | .qenc r g b a => .ok (.code (qenc ⟨r, g, b, a⟩))
  | .qdec code => (qdec cfg.decodeMax code noIndex noOffset).map Payload.color
  | .tag name => (tagOf name noIndex).map Payload.nameTag
  | .hpack count => (hpack cfg count).map Payload.hdr
  | .dpack w h n t => (dpack w h n t).map Payload.desc
  | .ppack pixels => .ok (.blk (ppack pixels))
  | .build images => (build cfg images).map Payload.rom
  | .hunpack input => (hunpack cfg input).map fun r => Payload.header r.1 r.2
  | .dunpack input off => (dunpack cfg input off noIndex).map fun r =>
      Payload.descriptor r.1.pixelCount r.1.nameTag r.1.width r.1.height r.2
  | .untag t => .ok (.name (untag t))
  | .punpack input off n => (punpack cfg input off n noIndex).map fun r => Payload.pixels r.1 r.2
  | .parse input => (parse cfg input).map Payload.records

/-- Two states that agree on everything that may decide a command's result: the configuration and the operands
(R32). The response of the previous command is not part of it (R29). -/
structure SameInputs (s t : State) : Prop where
  cfg   : t.cfg = s.cfg
  opnds : t.opnds = s.opnds

/-- Two states with the same response (R29). -/
structure SameResponse (s t : State) : Prop where
  status    : t.status = s.status
  errIndex  : t.errIndex = s.errIndex
  errOffset : t.errOffset = s.errOffset
  payload   : t.payload = s.payload

/-- Does a response register hold a value the host may read (R28, R157)? -/
def readable (reg : ResponseReg) (s : State) : Bool :=
  match reg with
  | .status => true
  | .errIndex => responseReady s && s.errIndex.isSome
  | .errOffset => responseReady s && s.errOffset.isSome
  | .payload => responseReady s && s.payload.isSome

/-- Does the host's next action keep its duties (R155 to R157, 20_memory.md R41)? An issue while `BUSY` = 1 waits. -/
def hostDuty (s : State) : Bool :=
  match s.host with
  | [] => true
  | .wait :: _ => true
  | .reset :: _ => true
  | .read reg :: _ => readable reg s
  | .write w :: _ => !inUse w.target s
  | .issue cmd :: _ => statusBusy s.status || admits cmd s

/-- `ERR_OFFSET` records this offset (R27). Of an offset that does not fit the register it says nothing: what the
register then holds is a free value (notes/assumptions/3.md). -/
def Records (off : Nat) (v : BitVec 64) : Prop := off < 2 ^ 64 → v.toNat = off

/-- The four bytes a name is stored as (R90): its first four characters as ASCII, padded on the right with spaces. -/
def storedName (name : List Char) : Bytes :=
  (name.take 4).map (fun c => BitVec.ofNat 8 c.toNat) ++ List.replicate (4 - name.length) 0x20#8

/-- The bytes of an image's record as BUILD writes them (R99, steps 3c and 3d). -/
def imageBytes (im : Image) : Bytes :=
  le32 (BitVec.ofNat 32 (im.width.toNat * im.height.toNat)) ++ storedName im.name ++ le32 im.width ++ le32 im.height ++
    im.pixels.flatMap fun p => le16 (qenc p)

/-- The first error of image `k`, in the order of 41_container_encode.md R101, as the value it leaves in `STATUS`. -/
def imageError (im : Image) : Option Byte :=
  if 0xFFFFFFFF < im.width.toNat * im.height.toNat then some 0x45#8
  else if im.width.toNat * im.height.toNat ≠ im.pixels.length then some 0x25#8
  else if (im.name.take 4).any (fun c => decide (0x7F < c.toNat)) then some 0x35#8
  else none

/-- A record of a container as a stream holds it (20_memory.md R47): its tag, width, height and codes. Its
`pixel_count` field is the number of codes. -/
structure RawRecord where
  nameTag : Tag
  width   : U32
  height  : U32
  codes   : List Code
deriving DecidableEq, Repr

/-- The bytes of a record (R47). -/
def RawRecord.bytes (r : RawRecord) : Bytes :=
  le32 (BitVec.ofNat 32 r.codes.length) ++ tagBytes r.nameTag ++ le32 r.width ++ le32 r.height ++ r.codes.flatMap le16

/-- The bytes of a container (R46). -/
def containerBytes (magic : Tag) (recs : List RawRecord) : Bytes :=
  tagBytes magic ++ [BitVec.ofNat 8 recs.length] ++ recs.flatMap RawRecord.bytes

/-- `R_k`, the offset of record `k` (R47): 5, and 16 plus two bytes a code for each record before it. -/
def recordOffset (recs : List RawRecord) (k : Nat) : Nat :=
  5 + ((recs.take k).map fun r => 16 + 2 * r.codes.length).sum

/-- May a block with this configuration accept the record (42_container_decode.md R112, R116)? -/
def RawRecord.acceptable (cfg : Config) (r : RawRecord) : Prop :=
  r.codes.length ≤ 0xFFFFFFFF ∧
  (cfg.dimCheck = .reject → r.codes.length = r.width.toNat * r.height.toNat) ∧
  ∀ c ∈ r.codes, c.toNat ≤ decodeLimit cfg.decodeMax

/-- The color a code in range stands for (40_color_codec.md R83). -/
def codeColor (c : Code) : Pixel := if c = 0#16 then ⟨0#8, 0#8, 0#8, 0#8⟩ else opaqueColor c.toNat

/-- What PARSE delivers for a record (R119). -/
def RawRecord.parsed (r : RawRecord) : Record where
  nameTag := r.nameTag
  name := untag r.nameTag
  width := r.width
  height := r.height
  pixels := r.codes.map codeColor

/-- A host that walks `m` records of a container with the primitive commands, from offset `cur` on, passing each
`next_off` on (70_reset_and_hazards.md R159): the records it collects, and the offset it ends at. -/
def Walk (s : State) (input : Bytes) : Nat → Nat → List Record → Nat → Prop
  | 0, cur, recs, last => recs = [] ∧ last = cur
  | m + 1, cur, recs, last =>
    ∃ pc t w h cur₁ t₁ px cur₂ t₂ nm t₃ rest,
      exec (.dunpack input cur) s = .next t₁ ∧ t₁.payload = some (.descriptor pc t w h cur₁) ∧
      exec (.punpack input cur₁ pc.toNat) s = .next t₂ ∧ t₂.payload = some (.pixels px cur₂) ∧
      exec (.untag t) s = .next t₃ ∧ t₃.payload = some (.name nm) ∧
      recs = ⟨t, nm, w, h, px⟩ :: rest ∧ Walk s input m cur₂ rest last

end Sys2Proof.Machine
end

