-- ==== Sys2Proof/Certificates/Slice0/Obligations.lean ====
section
/-! DEFINITION. The statements for the provers. Each docstring names the rule of spec/ it formalises. -/

open Sys2Proof Sys2Proof.Machine

/-! ### Reset, the invariant, and what a step is -/

/-- R150: what the state after reset holds, what the event "reset" does from any state, and that it is the only event
other than a command that changes the block's state. That the host goes on with its remaining actions after a reset
(`t.host = rest`) is the model's reading, DEDUCED (notes/assumptions/18.md). -/
def Obligations.ResetSetsTheResponseAndAbandonsTheCommand : Prop :=
  (State.reset.status = 0x00#8 ∧ State.reset.errIndex = none ∧ State.reset.errOffset = none ∧
    State.reset.payload = none ∧ State.reset.inProgress = none) ∧
  (∀ s rest, s.host = .reset :: rest →
    ∃ t, step s = .next t ∧ t.status = 0x00#8 ∧ t.errIndex = none ∧ t.errOffset = none ∧ t.payload = none ∧
      t.inProgress = none ∧ t.cfg = s.cfg ∧ t.opnds = s.opnds ∧ t.host = rest) ∧
  (∀ s t, s.inProgress = none → (∀ cmd rest, s.host ≠ .issue cmd :: rest) → (∀ rest, s.host ≠ .reset :: rest) →
    step s = .next t → SameResponse s t ∧ t.inProgress = none ∧ t.cfg = s.cfg)

/-- The invariant holds at reset, whatever `MAGIC` is. -/
def Obligations.ResetStateMeetsTheMachineInvariant : Prop := State.reset.Inv

/-- From every state that meets the invariant, reachable or not, a step that answers a next state keeps it: the
configuration stays legal (R6), `BUSY` says whether a command is in progress (R25), `STATUS` stays in the table of R66,
`PAYLOAD`, `ERR_INDEX` and `ERR_OFFSET` hold values exactly when R26 to R28 say, and the payload keeps the shape of
R31. That `errIndex` and `errOffset` hold values together, and the payload bounds, are read from R30 and the command
rules. -/
def Obligations.EveryStepKeepsTheMachineInvariant : Prop :=
  ∀ s t, s.Inv → step s = .next t → t.Inv

/-- A machine in the invariant stops exactly when the host's next action is one the spec refuses: an input beyond
`MAX_IN_LEN` (R41), a read of a register without a value (R28, R157), a write to an operand of the command in progress
(R156). Two counts are the model's: an issue while `BUSY` = 1, which R155 forbids and gives no step, counts as going
on, since the completion is the step that is taken (DEDUCED, notes/assumptions/7.md), and so does a write to a buffer
that is no operand of the command in progress (DEDUCED, notes/assumptions/8.md). -/
def Obligations.StepGoesOnExactlyWhenTheHostKeepsItsDuties : Prop :=
  ∀ s, s.Inv → ((∃ t, step s = .next t) ↔ hostDuty s = true)

/-- A step performs the decoded command: the command in progress is decoded from its word and the host's buffers and
run by `exec` (R30, R32). That an empty list of host actions and a wait let the command complete is the model's choice
(DESIGN CHOICE, notes/assumptions/6.md), and that a step with an issue while `BUSY` = 1 is the completion is DEDUCED
from R155 (notes/assumptions/7.md). -/
def Obligations.StepPerformsTheDecodedCommand : Prop :=
  ∀ s r i, s.inProgress = some r → decode r.cmd s.opnds = .ok i →
    (s.host = [] → step s = exec i s) ∧
    (∀ rest, s.host = .wait :: rest → step s = exec i { s with host := rest }) ∧
    (∀ cmd rest, s.host = .issue cmd :: rest → statusBusy s.status = true → step s = exec i s)

/-- How a word placed from outside is run: the next step performs the command the table word decodes to, at the state
in which it has been issued. This is the model's loading convention (notes/assumptions/19.md), not a rule of the spec.
-/
def Obligations.TableWordIsRunByTheNextStep : Prop :=
  ∀ (s : State) (w : Nat) (i : Instr), decodeTableWord 8 w = some i →
    ∃ t, step (s.withFetchWord 8 w) = exec i t ∧ t.cfg = s.cfg ∧ t.host = s.host ∧ t.opnds = OperandRecord.zero ∧
      statusBusy t.status = true

/-! ### The command word -/

/-- R62: the command map, every command byte with the operands R31 lists for it, and the reserved bytes. -/
def Obligations.CommandBytesSelectTheirCommands : Prop :=
  ∀ o : OperandRecord,
    decode 0x01#8 o = .ok (.qenc o.r o.g o.b o.a) ∧ decode 0x02#8 o = .ok (.qdec o.code) ∧
    decode 0x03#8 o = .ok (.tag o.name) ∧ decode 0x04#8 o = .ok (.hpack o.count) ∧
    decode 0x05#8 o = .ok (.dpack o.width o.height o.nPixels o.nameTag) ∧ decode 0x06#8 o = .ok (.ppack o.pixels) ∧
    decode 0x07#8 o = .ok (.build o.images) ∧ decode 0x08#8 o = .ok (.hunpack o.input) ∧
    decode 0x09#8 o = .ok (.dunpack o.input o.off) ∧ decode 0x0A#8 o = .ok (.untag o.nameTag) ∧
    decode 0x0B#8 o = .ok (.punpack o.input o.off o.n) ∧ decode 0x0C#8 o = .ok (.parse o.input) ∧
    decode 0x00#8 o = .error .reservedOp ∧ decode 0x0D#8 o = .error .reservedOp ∧
    decode 0x0E#8 o = .error .reservedOp ∧ decode 0x0F#8 o = .error .reservedOp

/-- R61: `RSV` is tested before `OP`; a word with both fields good is dispatched to its command; a rejected word reads
no operand, so whatever the buffers and `MAX_IN_LEN` are it completes, with IllegalCommand, index 0xFFFF and no offset.
-/
def Obligations.IllegalCommandWordsAreRejected : Prop :=
  (∀ cmd o, cmd.toNat / 16 ≠ 0 → decode cmd o = .error .reservedBits) ∧
  (∀ cmd o, cmd.toNat / 16 = 0 → cmd.toNat % 16 ∈ [0x0, 0xD, 0xE, 0xF] → decode cmd o = .error .reservedOp) ∧
  (∀ cmd o, cmd.toNat / 16 = 0 → cmd.toNat % 16 ∉ [0x0, 0xD, 0xE, 0xF] →
    ∃ i, decode cmd o = .ok i ∧ encodeWord i = cmd) ∧
  (∀ s r, s.inProgress = some r → s.host = [] → decode r.cmd s.opnds = .error .reservedBits →
    ∃ t, step s = .next t ∧ CompletesErr s t 0x27#8 0xFFFF#16 0xFFFFFFFFFFFFFFFF#64) ∧
  (∀ s r, s.inProgress = some r → s.host = [] → decode r.cmd s.opnds = .error .reservedOp →
    ∃ t, step s = .next t ∧ CompletesErr s t 0x17#8 0xFFFF#16 0xFFFFFFFFFFFFFFFF#64)

/-- Decode and encode agree: a command whose operands are placed in any buffers, and whose command byte is issued,
decodes to that command, every operand at every value. -/
def Obligations.EncodedCommandDecodesToItself : Prop :=
  ∀ (i : Instr) (o : OperandRecord), decode (encodeWord i) (placeOperands i o) = .ok i

/-- The other direction: a word and buffers that decode to a command are that command's word and hold its operands, so
no two words share a meaning and no operand is changed on entry (R63). -/
def Obligations.DecodedCommandEncodesBack : Prop :=
  ∀ (cmd : Byte) (o : OperandRecord) (i : Instr), decode cmd o = .ok i →
    encodeWord i = cmd ∧ placeOperands i o = o

/-- A command reads the operands R31 lists for it and no others: buffers that agree on those give the same command. -/
def Obligations.CommandReadsOnlyItsOwnOperands : Prop :=
  ∀ (cmd : Byte) (o o' : OperandRecord) (i : Instr), decode cmd o = .ok i →
    decode cmd (placeOperands i o') = .ok i

/-- The assembler of R73, one clause per mnemonic: each form's operands, in the order R73 gives them, become the writes
of that command's operands, and the mnemonic its command byte (R62). Where R73 has `IN` or a tag, any operand that
stands for those bytes will do. What a line issues decodes to the line's command, whatever the other buffers hold, and
every command has a line. The parsed form of a line is the model's (notes/assumptions/20.md). -/
def Obligations.AssembledLineIssuesItsCommand : Prop :=
  (∀ env m operands actions, assemble env m operands = some actions →
    ∃ i, asmCommand env m operands = some i ∧
      actions = (operandWrites i).map .write ++ [.issue (encodeWord i)] ∧
      ∀ o, decode (encodeWord i) ((operandWrites i).foldl (fun o w => w.apply o) o) = .ok i) ∧
  (∀ env i, ∃ m operands actions, assemble env m operands = some actions ∧ asmCommand env m operands = some i) ∧
  (∀ env (r g b a : Byte),
    assemble env .qenc [.number r.toNat, .number g.toNat, .number b.toNat, .number a.toNat] =
      some [.write (.r r), .write (.g g), .write (.b b), .write (.a a), .issue 0x01#8]) ∧
  (∀ env (code : Code), assemble env .qdec [.number code.toNat] = some [.write (.code code), .issue 0x02#8]) ∧
  (∀ env name, assemble env .tag [.string name] = some [.write (.name name), .issue 0x03#8]) ∧
  (∀ env count, assemble env .hpack [.number count] = some [.write (.count count), .issue 0x04#8]) ∧
  (∀ env (w h : U32) n x t0 t1 t2 t3, asmStream env x = some [t0, t1, t2, t3] →
    assemble env .dpack [.number w.toNat, .number h.toNat, .number n, x] =
      some [.write (.width w), .write (.height h), .write (.nPixels n), .write (.nameTag ⟨t0, t1, t2, t3⟩),
        .issue 0x05#8]) ∧
  (∀ env (px : List Pixel),
    assemble env .ppack [.pixels (px.map fun p => ⟨p.r.toNat, p.g.toNat, p.b.toNat, p.a.toNat⟩)] =
      some [.write (.pixels px), .issue 0x06#8]) ∧
  (∀ env (ims : List Image),
    assemble env .build [.images (ims.map fun im => ⟨im.name, im.width.toNat, im.height.toNat,
        im.pixels.map fun p => ⟨p.r.toNat, p.g.toNat, p.b.toNat, p.a.toNat⟩⟩)] =
      some [.write (.images ims), .issue 0x07#8]) ∧
  (∀ env x input, asmStream env x = some input →
    assemble env .hunpack [x] = some [.write (.input input), .issue 0x08#8]) ∧
  (∀ env x input off, asmStream env x = some input →
    assemble env .dunpack [x, .number off] = some [.write (.input input), .write (.off off), .issue 0x09#8]) ∧
  (∀ env x t0 t1 t2 t3, asmStream env x = some [t0, t1, t2, t3] →
    assemble env .untag [x] = some [.write (.nameTag ⟨t0, t1, t2, t3⟩), .issue 0x0A#8]) ∧
  (∀ env x input off n, asmStream env x = some input →
    assemble env .punpack [x, .number off, .number n] =
      some [.write (.input input), .write (.off off), .write (.n n), .issue 0x0B#8]) ∧
  (∀ env x input, asmStream env x = some input →
    assemble env .parse [x] = some [.write (.input input), .issue 0x0C#8])

/-! ### STATUS and the command transaction -/

/-- R66: the encoding of `STATUS` with its four fields, the value after reset and of every outcome, and that no other
`REASON` value is ever written. While a command is in progress it is the previous value with bit 3 set: the issue sets
the bit, and every step that leaves the command in progress leaves `STATUS` as it is. -/
def Obligations.StatusWordIsEncodedAsTheTableSays : Prop :=
  (∀ reason busy done kind, (packStatus reason busy done kind).toNat =
    reason.toNat * 16 + busy.toNat * 8 + done.toNat * 4 + kind.toNat) ∧
  (∀ reason busy done kind, statusReason (packStatus reason busy done kind) = reason ∧
    statusBusy (packStatus reason busy done kind) = busy ∧ statusDone (packStatus reason busy done kind) = done ∧
    statusKind (packStatus reason busy done kind) = kind) ∧
  (∀ st, packStatus (statusReason st) (statusBusy st) (statusDone st) (statusKind st) = st) ∧
  State.reset.status = 0x00#8 ∧ statusOk = 0x04#8 ∧ statusErr .tooManyImages = 0x15#8 ∧
  statusErr .pixelCountMismatch = 0x25#8 ∧
  statusErr .nonAsciiName = 0x35#8 ∧ statusErr .pixelCountOverflow = 0x45#8 ∧ statusErr .badMagic = 0x16#8 ∧
  statusErr .truncDesc = 0x26#8 ∧ statusErr .truncPixels = 0x36#8 ∧ statusErr .prematureEos = 0x46#8 ∧
  statusErr .codeRange = 0x56#8 ∧ statusErr .dimMismatch = 0x66#8 ∧ statusErr .reservedOp = 0x17#8 ∧
  statusErr .reservedBits = 0x27#8 ∧
  (∀ s cmd rest, s.host = .issue cmd :: rest → statusBusy s.status = false → admits cmd s = true →
    ∃ t, step s = .next t ∧ t.inProgress.isSome = true ∧ t.status = s.status ||| 0x08#8) ∧
  (∀ s t, s.inProgress.isSome = true → statusBusy s.status = true → step s = .next t → t.inProgress.isSome = true →
    t.status = s.status) ∧
  (∀ s t, statusLegal s.status = true → step s = .next t → statusLegal t.status = true)

/-- R25: the block writes `STATUS` at issue and at completion and at no other moment; R150 adds reset. At issue only
`BUSY` changes; at completion `BUSY` is 0 and `DONE` is 1. -/
def Obligations.StatusIsWrittenAtIssueAndCompletionOnly : Prop :=
  ∀ s t, s.Inv → step s = .next t →
    t.status = s.status ∨
    (∃ cmd rest, s.host = .issue cmd :: rest ∧ statusBusy s.status = false ∧ t.status = s.status ||| 0x08#8) ∨
    (statusBusy s.status = true ∧ statusBusy t.status = false ∧ statusDone t.status = true ∧ t.inProgress = none) ∨
    (∃ rest, s.host = .reset :: rest ∧ t.status = 0x00#8)

/-- R158 and the first half of R30: issue sets `BUSY` and nothing else of `STATUS`, ends the previous response, creates
the working variables, and leaves the host's buffers and the configuration alone; and from issue until completion the
three registers hold no value. The spec marks R158 as derived from R28 and R30. The working variables at issue are those
of R35: `cur <- 0` and `OUT <- []` of every command, and `N <- len(images)` of BUILD (R99). That no record has been
decoded, and that a loop over `k` or `i` starts at 0 already at issue, is DEDUCED (notes/assumptions/4.md). -/
def Obligations.IssueEndsThePreviousResponse : Prop :=
  (∀ s cmd rest, s.host = .issue cmd :: rest → statusBusy s.status = false → admits cmd s = true →
    ∃ t, step s = .next t ∧ t.status = s.status ||| 0x08#8 ∧ t.payload = none ∧ t.errIndex = none ∧
      t.errOffset = none ∧ (∃ w, t.inProgress = some ⟨cmd, w⟩ ∧ w.cur = 0 ∧ w.out = [] ∧ w.recs = [] ∧
        (∀ images, decode cmd s.opnds = .ok (.build images) → w.n = images.length ∧ w.k = 0 ∧ w.i = 0) ∧
        (∀ input, decode cmd s.opnds = .ok (.parse input) → w.k = 0 ∧ w.i = 0) ∧
        (∀ pixels, decode cmd s.opnds = .ok (.ppack pixels) → w.i = 0) ∧
        (∀ input off n, decode cmd s.opnds = .ok (.punpack input off n) → w.i = 0)) ∧
      t.host = rest ∧ t.cfg = s.cfg ∧ t.opnds = s.opnds) ∧
  (∀ s t, s.Inv → step s = .next t → t.inProgress.isSome = true →
    t.payload = none ∧ t.errIndex = none ∧ t.errOffset = none)

/-- R155: an issue while `BUSY` = 1 gets no step, and the host is stuck until completion. The step that is taken is the
completion of the command in progress; the issue stays first in the host's list. That this is the step is DEDUCED
(notes/assumptions/7.md). -/
def Obligations.IssueWhileBusyIsNotAdmitted : Prop :=
  ∀ s cmd rest t, s.Inv → s.host = .issue cmd :: rest → statusBusy s.status = true → step s = .next t →
    t.host = .issue cmd :: rest ∧ t.inProgress = none ∧ statusBusy t.status = false ∧ statusDone t.status = true

/-- R156: a host write to an operand of the command in progress is refused, whatever it writes, where a command's
operands are those R31 lists for it. That a write to any other buffer is taken, changes no register, and leaves the
command what it was, is DEDUCED (notes/assumptions/8.md); the next command sees it (20_memory.md R56). -/
def Obligations.WritingAnOperandOfARunningCommandIsRefused : Prop :=
  (∀ s r i w rest, s.inProgress = some r → s.host = .write w :: rest → decode r.cmd s.opnds = .ok i →
    w.target ∈ operandNames i → step s = .refused .operandsWritten) ∧
  (∀ s w rest, s.host = .write w :: rest →
    (∀ r i, s.inProgress = some r → decode r.cmd s.opnds = .ok i → w.target ∉ operandNames i) →
    ∃ t, step s = .next t ∧ t.opnds = w.apply s.opnds ∧ SameResponse s t ∧
      t.inProgress.map Running.cmd = s.inProgress.map Running.cmd ∧
      (∀ r, s.inProgress = some r → decode r.cmd t.opnds = decode r.cmd s.opnds) ∧ t.host = rest ∧ t.cfg = s.cfg ∧
      t.hostRead = s.hostRead) ∧
  (∀ r g b a, operandNames (.qenc r g b a) = [.r, .g, .b, .a]) ∧ (∀ c, operandNames (.qdec c) = [.code]) ∧
  (∀ nm, operandNames (.tag nm) = [.name]) ∧ (∀ c, operandNames (.hpack c) = [.count]) ∧
  (∀ w h n t, operandNames (.dpack w h n t) = [.width, .height, .nPixels, .nameTag]) ∧
  (∀ px, operandNames (.ppack px) = [.pixels]) ∧ (∀ ims, operandNames (.build ims) = [.images]) ∧
  (∀ x, operandNames (.hunpack x) = [.input]) ∧ (∀ x off, operandNames (.dunpack x off) = [.input, .off]) ∧
  (∀ t, operandNames (.untag t) = [.nameTag]) ∧ (∀ x off n, operandNames (.punpack x off n) = [.input, .off, .n]) ∧
  (∀ x, operandNames (.parse x) = [.input])

/-- R157 and R28: `PAYLOAD`, `ERR_INDEX` and `ERR_OFFSET` are read only when `BUSY` = 0, `DONE` = 1 and the register
holds a value, and then the host gets that value; any other such read is refused. That `STATUS` is read at any time,
and that a read changes no register, follow from R25, R30 and R141. The value read is seen through the model's own
field `hostRead` (DESIGN CHOICE, notes/assumptions/13.md). -/
def Obligations.ReadsReturnTheHeldValueOrAreRefused : Prop :=
  ∀ s reg rest, s.host = .read reg :: rest →
    (readable reg s = false → step s = .refused (.readNoValue reg)) ∧
    (readable reg s = true → ∃ t v, step s = .next t ∧ t.hostRead = some v ∧ SameResponse s t ∧ t.host = rest ∧
      (reg = .status → v = .status s.status) ∧
      (reg = .errIndex → ∃ x, s.errIndex = some x ∧ v = .errIndex x) ∧
      (reg = .errOffset → ∃ x, s.errOffset = some x ∧ v = .errOffset x) ∧
      (reg = .payload → ∃ x, s.payload = some x ∧ v = .payload x))

/-- R149: nothing except reset cancels a command. A step from a command in progress leaves it in progress with its
response untouched, or completes it with a result or an error, or is a reset, which delivers no response. -/
def Obligations.OnlyResetCancelsACommand : Prop :=
  ∀ s t r, s.Inv → s.inProgress = some r → step s = .next t →
    (∃ w, t.inProgress = some ⟨r.cmd, w⟩ ∧ SameResponse s t) ∨
    (∃ v, CompletesOk { s with host := t.host } t v) ∨
    (∃ st idx off, CompletesErr { s with host := t.host } t st idx off) ∨
    ((∃ rest, s.host = .reset :: rest) ∧ t.inProgress = none ∧ t.status = 0x00#8 ∧ t.payload = none ∧
      t.errIndex = none ∧ t.errOffset = none)

/-- R21: no step changes the configuration. -/
def Obligations.ConfigurationIsFixedForTheLifeOfTheInstance : Prop :=
  ∀ s t, step s = .next t → t.cfg = s.cfg

/-- R41, R52: the block never writes a host buffer. Only the host's own write changes one, so every read of the input
stream gives after any other step what it gave before. -/
def Obligations.TheBlockNeverWritesAHostBuffer : Prop :=
  ∀ s t, step s = .next t → (∀ w rest, s.host ≠ .write w :: rest) →
    t.opnds = s.opnds ∧ ∀ addr n, memRead t.opnds.input addr n = memRead s.opnds.input addr n

/-- R148: between commands the block is idle, and idle changes no state. -/
def Obligations.IdleChangesNoState : Prop :=
  (∀ s, s.inProgress = none → s.host = [] → step s = .next s) ∧
  (∀ s rest, s.inProgress = none → s.host = .wait :: rest → step s = .next { s with host := rest })

/-- R35: no host action can tell what the working variables hold. Two states that differ only in them, and in the
model's counter of free values, take steps that differ only in them. It holds for every value of the free ones. -/
def Obligations.WorkingVariablesAreNotObservable : Prop :=
  ∀ s cmd w w' n, s.inProgress = some ⟨cmd, w⟩ →
    (∀ t, step s = .next t → ∃ t', step { s with inProgress := some ⟨cmd, w'⟩, freeCount := n } = .next t' ∧
      SameResponse t t' ∧ t'.cfg = t.cfg ∧ t'.opnds = t.opnds ∧ t'.host = t.host ∧ t'.hostRead = t.hostRead ∧
      t'.inProgress.map Running.cmd = t.inProgress.map Running.cmd) ∧
    (∀ e, step s = .refused e → step { s with inProgress := some ⟨cmd, w'⟩, freeCount := n } = .refused e)

/-! ### What holds of every command -/

/-- The frame of every command (R30, R41, R59): a command that completes changes only the response. The configuration,
every host buffer and every byte of the input stream, and the host, are as before. -/
def Obligations.EveryCommandChangesOnlyTheResponse : Prop :=
  ∀ i s t, exec i s = .next t →
    HostUnchanged s t ∧ (∀ addr n, memRead t.opnds.input addr n = memRead s.opnds.input addr n) ∧
    ((∃ v, CompletesOk s t v) ∨ ∃ st idx off, CompletesErr s t st idx off ∧ statusKind st ≠ 0#2)

/-- R140 and R41: every admitted command completes, and a command whose input is longer than `MAX_IN_LEN` has no step.
-/
def Obligations.EveryAdmittedCommandCompletes : Prop :=
  ∀ (i : Instr) (s : State),
    (i.wellFormed s.cfg = true → ∃ t, exec i s = .next t) ∧
    (i.wellFormed s.cfg = false → exec i s = .refused .inputTooLong)

/-- R132 and R135: InputConstraintError is raised by TAG, HPACK, DPACK and BUILD only, FormatError by QDEC, HUNPACK,
DUNPACK, PUNPACK and PARSE only, and the command rules never raise IllegalCommand (R136). -/
def Obligations.ErrorKindsBelongToTheirPaths : Prop :=
  ∀ i s t, exec i s = .next t →
    (statusKind t.status = 1#2 → (∃ name, i = .tag name) ∨ (∃ count, i = .hpack count) ∨
      (∃ w h n tg, i = .dpack w h n tg) ∨ (∃ ims, i = .build ims)) ∧
    (statusKind t.status = 2#2 → (∃ code, i = .qdec code) ∨ (∃ input, i = .hunpack input) ∨
      (∃ input off, i = .dunpack input off) ∨ (∃ input off n, i = .punpack input off n) ∨
      (∃ input, i = .parse input)) ∧
    statusKind t.status ≠ 3#2

/-- R29 and R32: a command's result is a function of the configuration, the command word and the operands alone. The
response of an earlier command has no effect on it. -/
def Obligations.NoCommandDependsOnAnEarlierCommand : Prop :=
  ∀ s u r r', SameInputs s u → s.inProgress = some r → u.inProgress = some r' → r'.cmd = r.cmd →
    s.host = [] → u.host = [] →
    (∀ t, step s = .next t → ∃ t', step u = .next t' ∧ SameResponse t t') ∧
    (∀ e, step s = .refused e → step u = .refused e)

/-! ### The quantizer -/

/-- R81: QENC. -/
def Obligations.QencReturnsTheBucketCode : Prop :=
  (∀ o, decode 0x01#8 o = .ok (.qenc o.r o.g o.b o.a)) ∧
  ∀ r g b a s, ∃ t c, exec (.qenc r g b a) s = .next t ∧ CompletesOk s t (.code c) ∧
    c.toNat = if a = 0#8 then 0 else 1 + r.toNat / 32 * 64 + g.toNat / 32 * 8 + b.toNat / 32

/-- R82: an opaque code less one is the three buckets side by side, the map from bucket triples to codes 1 .. 512 is a
bijection, and QENC produces exactly the values 0 .. 512. The spec marks R82 as derived from R80 and R81. -/
def Obligations.OpaqueCodeIsTheBucketsSideBySide : Prop :=
  (∀ p : Pixel, p.a ≠ 0#8 →
    qenc p = (p.r.extractLsb' 5 3 ++ p.g.extractLsb' 5 3 ++ p.b.extractLsb' 5 3 : BitVec 9).zeroExtend 16 + 1#16) ∧
  (∀ n, 1 ≤ n → n ≤ 512 → ∃ rb gb bb, rb < 8 ∧ gb < 8 ∧ bb < 8 ∧ opaqueCode rb gb bb = n) ∧
  (∀ rb gb bb rb' gb' bb', rb < 8 → gb < 8 → bb < 8 → rb' < 8 → gb' < 8 → bb' < 8 →
    opaqueCode rb gb bb = opaqueCode rb' gb' bb' → rb = rb' ∧ gb = gb' ∧ bb = bb') ∧
  (∀ p q : Pixel, p.a ≠ 0#8 → q.a ≠ 0#8 →
    (qenc p = qenc q ↔ bucket p.r = bucket q.r ∧ bucket p.g = bucket q.g ∧ bucket p.b = bucket q.b)) ∧
  (∀ n, (∃ p : Pixel, (qenc p).toNat = n) ↔ n ≤ 512)

/-- R83: QDEC. -/
def Obligations.QdecReturnsTheBucketFloorColor : Prop :=
  (∀ o, decode 0x02#8 o = .ok (.qdec o.code)) ∧ decodeLimit .max512 = 512 ∧ decodeLimit .max511 = 511 ∧
  ∀ code s, ∃ t, exec (.qdec code) s = .next t ∧
    (decodeLimit s.cfg.decodeMax < code.toNat → CompletesErr s t 0x56#8 0xFFFF#16 0xFFFFFFFFFFFFFFFF#64) ∧
    (code = 0#16 → CompletesOk s t (.color ⟨0#8, 0#8, 0#8, 0#8⟩)) ∧
    (code ≠ 0#16 → code.toNat ≤ decodeLimit s.cfg.decodeMax →
      ∃ r g b, CompletesOk s t (.color ⟨r, g, b, 255#8⟩) ∧
        r.toNat = (code.toNat - 1) / 64 * 32 ∧ g.toNat = (code.toNat - 1) % 64 / 8 * 32 ∧
        b.toNat = (code.toNat - 1) % 8 * 32)

/-- R84: encode then decode gives the bucket-floor of each channel, or the zero color. With `DECODE_MAX` = 511 the
lightest colors raise CODE_RANGE instead, and the rest go on. -/
def Obligations.DecodeOfEncodeIsTheBucketFloor : Prop :=
  ∀ (p : Pixel) idx off,
    (p.a = 0#8 → ∀ limit, qdec limit (qenc p) idx off = .ok ⟨0#8, 0#8, 0#8, 0#8⟩) ∧
    (p.a ≠ 0#8 → ∃ r g b, qdec .max512 (qenc p) idx off = .ok ⟨r, g, b, 255#8⟩ ∧
      r.toNat = p.r.toNat / 32 * 32 ∧ g.toNat = p.g.toNat / 32 * 32 ∧ b.toNat = p.b.toNat / 32 * 32) ∧
    (p.a ≠ 0#8 → 224 ≤ p.r.toNat → 224 ≤ p.g.toNat → 224 ≤ p.b.toNat →
      qdec .max511 (qenc p) idx off = .error ⟨.codeRange, idx, off⟩) ∧
    (p.r.toNat < 224 ∨ p.g.toNat < 224 ∨ p.b.toNat < 224 →
      qdec .max511 (qenc p) idx off = qdec .max512 (qenc p) idx off)

/-- R85: decode then encode gives every code in range back, and quantizing twice is quantizing once. The spec marks R85
as derived from R81 and R83. -/
def Obligations.EncodeOfDecodeIsTheCode : Prop :=
  (∀ limit code idx off, code.toNat ≤ decodeLimit limit →
    ∃ p, qdec limit code idx off = .ok p ∧ qenc p = code) ∧
  (∀ p q idx off, qdec .max512 (qenc p) idx off = .ok q → qenc q = qenc p)

/-- R86: exactly the bucket-aligned opaque colors and the zero color survive a round trip, and alpha is 0 or 255 after
one. -/
def Obligations.RoundTripKeepsExactlyTheAlignedColors : Prop :=
  ∀ p q idx off, qdec .max512 (qenc p) idx off = .ok q →
    (q = p ↔ p = ⟨0#8, 0#8, 0#8, 0#8⟩ ∨
      (p.a = 255#8 ∧ p.r.toNat % 32 = 0 ∧ p.g.toNat % 32 = 0 ∧ p.b.toNat % 32 = 0)) ∧
    (q.a = 0#8 ∨ q.a = 255#8)

/-! ### The encode path -/

/-- R91: TAG. The bytes of ASCII characters and of the space are the spec's own general knowledge (G1, G2;
notes/assumptions/14.md). -/
def Obligations.TagStoresFourAsciiCharactersPadded : Prop :=
  (∀ o, decode 0x03#8 o = .ok (.tag o.name)) ∧
  ∀ name s, ∃ t, exec (.tag name) s = .next t ∧
    ((∀ c ∈ name.take 4, c.toNat ≤ 0x7F) →
      ∃ tg, CompletesOk s t (.nameTag tg) ∧ [tg.b0, tg.b1, tg.b2, tg.b3] = storedName name) ∧
    (∀ c ∈ name.take 4, 0x7F < c.toNat → CompletesErr s t 0x35#8 0xFFFF#16 0xFFFFFFFFFFFFFFFF#64)

/-- R92: names that share their first 4 characters get the same tag, a name shorter than 4 gets the tag of that name
with spaces added, and BUILD does not detect it: any two images good by themselves build together. That the padding
byte is the space's and which characters are ASCII are the spec's own general knowledge (G1, G2;
notes/assumptions/14.md). -/
def Obligations.TagsOfDifferentNamesMayCollide : Prop :=
  (∀ name name' idx, name.take 4 = name'.take 4 → tagOf name idx = tagOf name' idx) ∧
  (∀ (name : List Char) j idx, name.length + j ≤ 4 → tagOf (name ++ List.replicate j ' ') idx = tagOf name idx) ∧
  (∀ im im' s, imageError im = none → imageError im' = none →
    ∃ t rom, exec (.build [im, im']) s = .next t ∧ CompletesOk s t (.rom rom))

/-- R93: HPACK. -/
def Obligations.HpackWritesMagicAndCount : Prop :=
  (∀ o, decode 0x04#8 o = .ok (.hpack o.count)) ∧
  ∀ count s, ∃ t, exec (.hpack count) s = .next t ∧
    (count ≤ 255 → ∃ n : Byte, n.toNat = count ∧
      CompletesOk s t (.hdr [s.cfg.magic.b0, s.cfg.magic.b1, s.cfg.magic.b2, s.cfg.magic.b3, n])) ∧
    (255 < count → CompletesErr s t 0x15#8 0xFFFF#16 0xFFFFFFFFFFFFFFFF#64)

/-- R95: DPACK. The product is exact, and overflow is tested before mismatch. -/
def Obligations.DpackWritesTheDescriptorOrChecksTheCount : Prop :=
  (∀ o, decode 0x05#8 o = .ok (.dpack o.width o.height o.nPixels o.nameTag)) ∧
  ∀ (w h : U32) n tg s, ∃ t, exec (.dpack w h n tg) s = .next t ∧
    (0xFFFFFFFF < w.toNat * h.toNat → CompletesErr s t 0x45#8 0xFFFF#16 0xFFFFFFFFFFFFFFFF#64) ∧
    (w.toNat * h.toNat ≤ 0xFFFFFFFF → w.toNat * h.toNat ≠ n →
      CompletesErr s t 0x25#8 0xFFFF#16 0xFFFFFFFFFFFFFFFF#64) ∧
    (w.toNat * h.toNat ≤ 0xFFFFFFFF → w.toNat * h.toNat = n →
      ∃ d, CompletesOk s t (.desc d) ∧ d.length = 16 ∧ leNat (d.take 4) = n ∧
        (d.drop 4).take 4 = [tg.b0, tg.b1, tg.b2, tg.b3] ∧ leNat ((d.drop 8).take 4) = w.toNat ∧
        leNat (d.drop 12) = h.toNat)

/-- R97 and R98: PPACK packs element by element, in order, two bytes each with the low byte first. -/
def Obligations.PpackPacksEachPixelInOrder : Prop :=
  (∀ o, decode 0x06#8 o = .ok (.ppack o.pixels)) ∧
  ∀ pixels s, ∃ t blk, exec (.ppack pixels) s = .next t ∧ CompletesOk s t (.blk blk) ∧
    blk.length = 2 * pixels.length ∧
    ∀ i p, pixels[i]? = some p → ∃ lo hi : Byte, blk[2 * i]? = some lo ∧ blk[2 * i + 1]? = some hi ∧
      lo.toNat + 256 * hi.toNat = (qenc p).toNat

/-- R99 and R101: BUILD delivers the whole container, or the first error in the order of R101 with the index of its
image, and then no byte. The bytes of ASCII characters and of the space are the spec's own general knowledge (G1, G2;
PRESUMED, notes/assumptions/14.md). -/
def Obligations.BuildDeliversTheContainerOrTheFirstError : Prop :=
  (∀ o, decode 0x07#8 o = .ok (.build o.images)) ∧
  ∀ images s, ∃ t, exec (.build images) s = .next t ∧
    (255 < images.length → CompletesErr s t 0x15#8 0xFFFF#16 0xFFFFFFFFFFFFFFFF#64) ∧
    (images.length ≤ 255 → ∀ before im after st, images = before ++ im :: after →
      (∀ x ∈ before, imageError x = none) → imageError im = some st →
      CompletesErr s t st (BitVec.ofNat 16 before.length) 0xFFFFFFFFFFFFFFFF#64) ∧
    (images.length ≤ 255 → (∀ x ∈ images, imageError x = none) →
      CompletesOk s t (.rom (tagBytes s.cfg.magic ++ [BitVec.ofNat 8 images.length] ++ images.flatMap imageBytes)))

/-- R100: a container BUILD delivers is the concatenation of what HPACK, and DPACK, TAG and PPACK for each image,
deliver; and a failing BUILD reports the first failing primitive's kind and reason with the image's index. -/
def Obligations.BuildIsTheCompositionOfThePrimitives : Prop :=
  (∀ (images : List Image) s t rom, exec (.build images) s = .next t → t.payload = some (.rom rom) →
    ∃ t₀ hdr parts, exec (.hpack images.length) s = .next t₀ ∧ t₀.payload = some (.hdr hdr) ∧
      rom = hdr ++ List.flatten parts ∧ parts.length = images.length ∧
      ∀ (k : Nat) (im : Image), images[k]? = some im → ∃ tg d b t₁ t₂ t₃,
        exec (.tag im.name) s = .next t₁ ∧ t₁.payload = some (.nameTag tg) ∧
        exec (.dpack im.width im.height im.pixels.length tg) s = .next t₂ ∧ t₂.payload = some (.desc d) ∧
        exec (.ppack im.pixels) s = .next t₃ ∧ t₃.payload = some (.blk b) ∧ parts[k]? = some (d ++ b)) ∧
  (∀ images s, 255 < images.length → exec (.build images) s = exec (.hpack images.length) s) ∧
  (∀ images before im after s tg t₂, images.length ≤ 255 → images = before ++ im :: after →
    (∀ x ∈ before, imageError x = none) → exec (.dpack im.width im.height im.pixels.length tg) s = .next t₂ →
    (t₂.payload = none → ∃ t, exec (.build images) s = .next t ∧
      CompletesErr s t t₂.status (BitVec.ofNat 16 before.length) 0xFFFFFFFFFFFFFFFF#64) ∧
    (∀ t₁, t₂.payload ≠ none → exec (.tag im.name) s = .next t₁ → t₁.payload = none →
      ∃ t, exec (.build images) s = .next t ∧
        CompletesErr s t t₁.status (BitVec.ofNat 16 before.length) 0xFFFFFFFFFFFFFFFF#64))

/-- R103: the length of a container BUILD delivers. -/
def Obligations.ContainerLengthIsTheSumOfItsRecords : Prop :=
  ∀ (images : List Image) s t rom, exec (.build images) s = .next t → t.payload = some (.rom rom) →
    rom.length = 5 + (images.map fun im => 16 + 2 * im.pixels.length).sum

/-- R46 to R48 (the index formula is the spec's own general knowledge, G4): in a container BUILD delivers, the magic,
the count, the fields of record `k` and the code of each of its pixels `(x, y)` stand at the offsets of the layout,
whatever their alignment (R51). The bytes of the name tag rest on the space being 0x20 and ASCII (G1, G2), and all of
G1, G2 and G4 are PRESUMED (notes/assumptions/14.md). -/
def Obligations.ContainerFieldsStandAtTheirOffsets : Prop :=
  ∀ (images : List Image) s t rom, exec (.build images) s = .next t → t.payload = some (.rom rom) →
    readTag rom 0 = s.cfg.magic ∧ (readU8 rom 4).toNat = images.length ∧
    ∀ (k : Nat) (im : Image), images[k]? = some im →
      ∃ off, off = 5 + ((images.take k).map fun x => 16 + 2 * x.pixels.length).sum ∧
        (readU32 rom off).toNat = im.pixels.length ∧ tagBytes (readTag rom (off + 4)) = storedName im.name ∧
        readU32 rom (off + 8) = im.width ∧ readU32 rom (off + 12) = im.height ∧
        ∀ x y, x < im.width.toNat → y < im.height.toNat → ∃ p, im.pixels[y * im.width.toNat + x]? = some p ∧
          readU16 rom (off + 16 + 2 * (y * im.width.toNat + x)) = qenc p

/-! ### The decode path -/

/-- R43 and R51: multi-byte integers are little-endian, at every offset; the writes are the bytes R43 lists, and the
reads' inverses. -/
def Obligations.FieldsAreLittleEndianAtEveryOffset : Prop :=
  (∀ (pre rest : Bytes) (b0 b1 : Byte), (readU16 (pre ++ [b0, b1] ++ rest) pre.length).toNat =
    b0.toNat + 256 * b1.toNat) ∧
  (∀ (pre rest : Bytes) (b0 b1 b2 b3 : Byte), (readU32 (pre ++ [b0, b1, b2, b3] ++ rest) pre.length).toNat =
    b0.toNat + 256 * b1.toNat + 65536 * b2.toNat + 16777216 * b3.toNat) ∧
  (∀ v, le16 v = [v.extractLsb' 0 8, v.extractLsb' 8 8]) ∧
  (∀ v, le32 v = [v.extractLsb' 0 8, v.extractLsb' 8 8, v.extractLsb' 16 8, v.extractLsb' 24 8]) ∧
  (∀ (pre rest : Bytes) v, readU16 (pre ++ le16 v ++ rest) pre.length = v) ∧
  (∀ (pre rest : Bytes) v, readU32 (pre ++ le32 v ++ rest) pre.length = v)

/-- R111: HUNPACK, for an input the block admits (R41). -/
def Obligations.HunpackChecksMagicAndReadsTheCount : Prop :=
  (∀ o, decode 0x08#8 o = .ok (.hunpack o.input)) ∧
  ∀ input s, s.cfg.admitsLen input.length = true → ∃ t, exec (.hunpack input) s = .next t ∧
    (input.take 4 ≠ tagBytes s.cfg.magic → CompletesErr s t 0x16#8 0xFFFF#16 0#64) ∧
    (input = tagBytes s.cfg.magic → CompletesErr s t 0x46#8 0xFFFF#16 4#64) ∧
    (∀ n rest, input = tagBytes s.cfg.magic ++ n :: rest → CompletesOk s t (.header n 5))

/-- R113: DUNPACK, for an input the block admits (R41). An offset of 2^64 or more, which `ERR_OFFSET` cannot hold, is
the model's free value (notes/assumptions/3.md); nothing is said of it here. -/
def Obligations.DunpackReadsOneDescriptor : Prop :=
  (∀ o, decode 0x09#8 o = .ok (.dunpack o.input o.off)) ∧
  ∀ input off s, s.cfg.admitsLen input.length = true → ∃ t, exec (.dunpack input off) s = .next t ∧
    (input.length < off + 16 → ∃ v, Records off v ∧ CompletesErr s t 0x26#8 0xFFFF#16 v) ∧
    (off + 16 ≤ input.length → s.cfg.dimCheck = .reject →
      (readU32 input off).toNat ≠ (readU32 input (off + 8)).toNat * (readU32 input (off + 12)).toNat →
      ∃ v, Records off v ∧ CompletesErr s t 0x66#8 0xFFFF#16 v) ∧
    (off + 16 ≤ input.length →
      (s.cfg.dimCheck = .ignore ∨
        (readU32 input off).toNat = (readU32 input (off + 8)).toNat * (readU32 input (off + 12)).toNat) →
      CompletesOk s t (.descriptor (readU32 input off) (readTag input (off + 4)) (readU32 input (off + 8))
        (readU32 input (off + 12)) (off + 16)))

/-- R115: UNTAG removes the trailing bytes 0x20 and nothing else. That a space is 0x20 is the spec's own general
knowledge (G1; notes/assumptions/14.md). -/
def Obligations.UntagRemovesOnlyTrailingSpaces : Prop :=
  (∀ o, decode 0x0A#8 o = .ok (.untag o.nameTag)) ∧
  ∀ tg s, ∃ t name, exec (.untag tg) s = .next t ∧ CompletesOk s t (.name name) ∧
    [tg.b0, tg.b1, tg.b2, tg.b3] = name ++ List.replicate (4 - name.length) 0x20#8 ∧
    name.getLast? ≠ some 0x20#8

/-- R117 and R118: PUNPACK, for an input the block admits (R41). The whole block is checked before any code; the first
code out of range is the one reported; pixel `i` comes from the two bytes at `off + 2i`. An offset of 2^64 or more is
the model's free value (notes/assumptions/3.md). -/
def Obligations.PunpackDecodesEachCodeInOrder : Prop :=
  (∀ o, decode 0x0B#8 o = .ok (.punpack o.input o.off o.n)) ∧
  ∀ input off n s, s.cfg.admitsLen input.length = true → ∃ t, exec (.punpack input off n) s = .next t ∧
    (input.length < off + 2 * n → ∃ v, Records off v ∧ CompletesErr s t 0x36#8 0xFFFF#16 v) ∧
    (off + 2 * n ≤ input.length →
      (∀ i < n, (readU16 input (off + 2 * i)).toNat ≤ decodeLimit s.cfg.decodeMax) →
      ∃ px, CompletesOk s t (.pixels px (off + 2 * n)) ∧ px.length = n ∧
        ∀ i < n, px[i]? = some (codeColor (readU16 input (off + 2 * i)))) ∧
    (off + 2 * n ≤ input.length → ∀ i < n, decodeLimit s.cfg.decodeMax < (readU16 input (off + 2 * i)).toNat →
      (∀ j < i, (readU16 input (off + 2 * j)).toNat ≤ decodeLimit s.cfg.decodeMax) →
      ∃ v, Records (off + 2 * i) v ∧ CompletesErr s t 0x56#8 0xFFFF#16 v)

/-- The first half of R120, and R119 with it: PARSE delivers exactly the records a host collects that runs HUNPACK once
and then walks the container with DUNPACK, PUNPACK and UNTAG. -/
def Obligations.ParseDeliversExactlyTheWalkOfThePrimitives : Prop :=
  ∀ input s recs, s.cfg.admitsLen input.length = true →
    ((∃ t, exec (.parse input) s = .next t ∧ CompletesOk s t (.records recs)) ↔
      ∃ t₀ n cur last, exec (.hunpack input) s = .next t₀ ∧ t₀.payload = some (.header n cur) ∧
        Walk s input n.toNat cur recs last)

/-- R121: the errors of PARSE in stream order. After the magic and the count, record `j` is examined when the `j`
records before it are good, and its first failing check is reported with its index. Of an offset of 2^64 or more
nothing is said (notes/assumptions/3.md). -/
def Obligations.ParseReportsTheFirstErrorInStreamOrder : Prop :=
  ∀ input s, s.cfg.admitsLen input.length = true → ∃ t, exec (.parse input) s = .next t ∧
    (input.take 4 ≠ tagBytes s.cfg.magic → CompletesErr s t 0x16#8 0xFFFF#16 0#64) ∧
    (input = tagBytes s.cfg.magic → CompletesErr s t 0x46#8 0xFFFF#16 4#64) ∧
    (∀ (n : Byte) rest j recs off, input = tagBytes s.cfg.magic ++ n :: rest → j < n.toNat →
      Walk s input j 5 recs off →
      (input.length < off + 16 → ∃ v, Records off v ∧ CompletesErr s t 0x26#8 (BitVec.ofNat 16 j) v) ∧
      (off + 16 ≤ input.length →
        (s.cfg.dimCheck = .reject ∧
          (readU32 input off).toNat ≠ (readU32 input (off + 8)).toNat * (readU32 input (off + 12)).toNat →
          ∃ v, Records off v ∧ CompletesErr s t 0x66#8 (BitVec.ofNat 16 j) v) ∧
        (¬(s.cfg.dimCheck = .reject ∧
          (readU32 input off).toNat ≠ (readU32 input (off + 8)).toNat * (readU32 input (off + 12)).toNat) →
          (input.length < off + 16 + 2 * (readU32 input off).toNat →
            ∃ v, Records (off + 16) v ∧ CompletesErr s t 0x36#8 (BitVec.ofNat 16 j) v) ∧
          (off + 16 + 2 * (readU32 input off).toNat ≤ input.length → ∀ i < (readU32 input off).toNat,
            decodeLimit s.cfg.decodeMax < (readU16 input (off + 16 + 2 * i)).toNat →
            (∀ l < i, (readU16 input (off + 16 + 2 * l)).toNat ≤ decodeLimit s.cfg.decodeMax) →
            ∃ v, Records (off + 16 + 2 * i) v ∧ CompletesErr s t 0x56#8 (BitVec.ofNat 16 j) v))))

/-- R122: bytes after the last record change nothing. -/
def Obligations.TrailingBytesAreIgnored : Prop :=
  ∀ input extra s recs, s.cfg.admitsLen (input ++ extra).length = true →
    (∃ t, exec (.parse input) s = .next t ∧ CompletesOk s t (.records recs)) →
    ∃ t, exec (.parse (input ++ extra)) s = .next t ∧ CompletesOk s t (.records recs)

/-- PARSE completes on every stream that is a container with any bytes after it, and delivers its records (R46, R47,
R119): the completion statement of PARSE, on the operand and the configuration alone. -/
def Obligations.ParseDeliversEveryContainer : Prop :=
  (∀ o, decode 0x0C#8 o = .ok (.parse o.input)) ∧
  ∀ raws trailing s, raws.length ≤ 255 → (∀ r ∈ raws, RawRecord.acceptable s.cfg r) →
    s.cfg.admitsLen (containerBytes s.cfg.magic raws ++ trailing).length = true →
    ∃ t, exec (.parse (containerBytes s.cfg.magic raws ++ trailing)) s = .next t ∧
      CompletesOk s t (.records (raws.map RawRecord.parsed))

/-- The converse: a stream PARSE accepts is a container of acceptable records with bytes after it, and the records
delivered are that container's. With the statement before it, PARSE accepts exactly the grammar of R46 and R47. -/
def Obligations.ParseAcceptsOnlyContainers : Prop :=
  ∀ input s t recs, exec (.parse input) s = .next t → t.payload = some (.records recs) →
    ∃ raws trailing, raws.length ≤ 255 ∧ (∀ r ∈ raws, RawRecord.acceptable s.cfg r) ∧
      input = containerBytes s.cfg.magic raws ++ trailing ∧ recs = raws.map RawRecord.parsed

/-- R123 (the index formula is the spec's own general knowledge, G4; notes/assumptions/14.md): a delivered record whose
pixel count is width times height is a grid, with pixel `(x, y)` at `y*w + x`; with `DIM_CHECK` = reject every
delivered record is one, and a record that is not has no grid. -/
def Obligations.DeliveredRecordsAreGrids : Prop :=
  (∀ input s t recs, exec (.parse input) s = .next t → t.payload = some (.records recs) →
    s.cfg.dimCheck = .reject → ∀ rec₀ ∈ recs, rec₀.pixels.length = rec₀.width.toNat * rec₀.height.toNat) ∧
  (∀ (rec₀ : Record) x y, rec₀.pixels.length = rec₀.width.toNat * rec₀.height.toNat →
    x < rec₀.width.toNat → y < rec₀.height.toNat →
    ∃ p, pixelAt rec₀ x y = some p ∧ rec₀.pixels[y * rec₀.width.toNat + x]? = some p) ∧
  (∀ (rec₀ : Record) x y, rec₀.pixels.length ≠ rec₀.width.toNat * rec₀.height.toNat → pixelAt rec₀ x y = none)

/-! ### Round trips of the whole container -/

/-- R124: what BUILD delivers, PARSE reads back, under either value of `DIM_CHECK`, on any instance with the same
magic: as many records, the same widths and heights, the stored tags and names, and every pixel quantized once. With
`DECODE_MAX` = 511 it fails with CODE_RANGE as soon as one pixel has the largest code. -/
def Obligations.ParseReadsBackWhatBuildDelivers : Prop :=
  ∀ (images : List Image) s t rom, exec (.build images) s = .next t → t.payload = some (.rom rom) →
    ∀ u : State, u.cfg.magic = s.cfg.magic → u.cfg.admitsLen rom.length = true →
      (u.cfg.decodeMax = .max512 → ∃ (t' : State) (recs : List Record), exec (.parse rom) u = .next t' ∧
        CompletesOk u t' (.records recs) ∧
        recs.length = images.length ∧
        ∀ (k : Nat) (im : Image), images[k]? = some im → ∃ rec₀, recs[k]? = some rec₀ ∧ rec₀.width = im.width ∧
          rec₀.height = im.height ∧ tagOf im.name 0xFFFF#16 = .ok rec₀.nameTag ∧ rec₀.name = untag rec₀.nameTag ∧
          rec₀.pixels.length = im.pixels.length ∧
          ∀ (i : Nat) (p : Pixel), im.pixels[i]? = some p → ∃ q, rec₀.pixels[i]? = some q ∧
            qdec .max512 (qenc p) 0xFFFF#16 0xFFFFFFFFFFFFFFFF#64 = .ok q) ∧
      (u.cfg.decodeMax = .max511 →
        (∃ im ∈ images, ∃ p ∈ im.pixels, p.a ≠ 0#8 ∧ 224 ≤ p.r.toNat ∧ 224 ≤ p.g.toNat ∧ 224 ≤ p.b.toNat) →
        ∃ t' idx off, exec (.parse rom) u = .next t' ∧ CompletesErr u t' 0x56#8 idx off)

/-- R154: an instance with another magic rejects the container with BAD_MAGIC, and one with `DECODE_MAX` = 511 rejects
a container that holds code 512 with CODE_RANGE. -/
def Obligations.InstancesMustAgreeOnMagicAndDecodeMax : Prop :=
  ∀ (images : List Image) s t rom, exec (.build images) s = .next t → t.payload = some (.rom rom) →
    ∀ u : State, u.cfg.admitsLen rom.length = true →
      (u.cfg.magic ≠ s.cfg.magic → ∃ t', exec (.parse rom) u = .next t' ∧ CompletesErr u t' 0x16#8 0xFFFF#16 0#64) ∧
      (u.cfg.magic = s.cfg.magic → u.cfg.decodeMax = .max511 →
        (∃ im ∈ images, ∃ p ∈ im.pixels, qenc p = 512#16) →
        ∃ t' idx off, exec (.parse rom) u = .next t' ∧ CompletesErr u t' 0x56#8 idx off)

/-- R125: the name read back is the first 4 characters without their trailing spaces, so names that differ only after
their fourth character, or only in trailing spaces within it, read back the same. That a character is written as its
scalar value and the space is 0x20 is the spec's own general knowledge (G1, G2; PRESUMED, notes/assumptions/14.md). -/
def Obligations.NameReadBackIsTheTruncatedName : Prop :=
  (∀ name idx tg, tagOf name idx = .ok tg →
    ∃ j, (name.take 4).map (fun c => BitVec.ofNat 8 c.toNat) = untag tg ++ List.replicate j 0x20#8 ∧
      (untag tg).getLast? ≠ some 0x20#8) ∧
  (∀ (name name' common : List Char) i j idx tg tg', name.take 4 = common ++ List.replicate i ' ' →
    name'.take 4 = common ++ List.replicate j ' ' → tagOf name idx = .ok tg → tagOf name' idx = .ok tg' →
    untag tg = untag tg')

/-! ### The assembler's symbols -/

/-- The symbols of R73: a byte string stands for its hex bytes in order with `MAGIC` for its four bytes, a buffer name
for what its latest `.bytes` line gives, and `OUT` for the payload of the previous command. That `OUT` stands for
nothing after a payload that is no byte string is the model's choice (notes/assumptions/20.md). -/
def Obligations.AssemblerSymbolsStandForTheirBytes : Prop :=
  (∀ env (b : Bytes), asmStream env (.byteString (b.map .hex)) = some b) ∧
  (∀ env, asmStream env (.byteString [.magic]) = some [env.magic.b0, env.magic.b1, env.magic.b2, env.magic.b3]) ∧
  (∀ env items items', asmBytes env (items ++ items') = asmBytes env items ++ asmBytes env items') ∧
  (∀ env items, asmStream env (.byteString items) = some (asmBytes env items)) ∧
  (∀ env name items, ∃ env', assembleLine env (.bytesDef name items) = some ([], env') ∧
    asmStream env' (.buffer name) = some (asmBytes env items) ∧
    ∀ name', name' ≠ name → asmStream env' (.buffer name') = asmStream env (.buffer name')) ∧
  (∀ (env : AsmEnv) (v : Payload) (b : Bytes), (v = .hdr b ∨ v = .desc b ∨ v = .blk b ∨ v = .rom b ∨ v = .name b) →
    asmStream { env with out := asmOut (some v) } .out = some b) ∧
  (∀ (env : AsmEnv) (t : Tag), asmStream { env with out := asmOut (some (.nameTag t)) } .out =
    some [t.b0, t.b1, t.b2, t.b3])
end

