-- ==== Sys2Proof/Laws/Bytes.lean ====
section
/-! SUPPORT. Byte order and stream reads (20_memory.md R43 to R45): what a read gives at the start of known bytes, that
writes and reads are inverses, and that the cell view of a stream is canonical. -/
namespace Sys2Proof.Laws
open Sys2Proof.Machine

@[simp] theorem length_le16 (v : Code) : (le16 v).length = 2 := rfl
@[simp] theorem length_le32 (v : U32) : (le32 v).length = 4 := rfl
@[simp] theorem length_tagBytes (t : Tag) : (tagBytes t).length = 4 := rfl

/-- The two bytes of a code make its value (R43). -/
theorem leNat_le16 (v : Code) : leNat (le16 v) = v.toNat := by
  have h := v.isLt
  simp [leNat, le16, BitVec.extractLsb'_toNat, Nat.shiftRight_eq_div_pow]
  omega

/-- The four bytes of a `u32` make its value (R43). -/
theorem leNat_le32 (v : U32) : leNat (le32 v) = v.toNat := by
  have h := v.isLt
  simp [leNat, le32, BitVec.extractLsb'_toNat, Nat.shiftRight_eq_div_pow]
  omega

/-- Any two bytes are those of the code they make. -/
theorem le16_leNat (b0 b1 : Byte) : le16 (BitVec.ofNat 16 (leNat [b0, b1])) = [b0, b1] := by
  have h0 := b0.isLt
  have h1 := b1.isLt
  simp only [le16, leNat, List.cons.injEq, and_true]
  constructor <;> apply BitVec.eq_of_toNat_eq <;>
    simp [BitVec.extractLsb'_toNat, Nat.shiftRight_eq_div_pow] <;> omega

/-- Any four bytes are those of the `u32` they make. -/
theorem le32_leNat (b0 b1 b2 b3 : Byte) :
    le32 (BitVec.ofNat 32 (leNat [b0, b1, b2, b3])) = [b0, b1, b2, b3] := by
  have h0 := b0.isLt
  have h1 := b1.isLt
  have h2 := b2.isLt
  have h3 := b3.isLt
  simp only [le32, leNat, List.cons.injEq, and_true]
  refine ⟨?_, ?_, ?_, ?_⟩ <;> apply BitVec.eq_of_toNat_eq <;>
    simp [BitVec.extractLsb'_toNat, Nat.shiftRight_eq_div_pow] <;> omega

/-- A read of `n` bytes where the stream is known to hold them. -/
theorem memReadBytes_of_drop {input d rest : Bytes} {off n : Nat} (h : input.drop off = d ++ rest)
    (hn : d.length = n) : memReadBytes input off n = d := by
  simp [memReadBytes, h, ← hn]

/-- What stands after bytes that are known. -/
theorem drop_of_drop {input d rest : Bytes} {off n : Nat} (h : input.drop off = d ++ rest) (hn : d.length = n) :
    input.drop (off + n) = rest := by
  rw [← hn, ← List.drop_drop, h, List.drop_left]

/-- Reading a `u16` the stream holds. -/
theorem readU16_of_drop {input rest : Bytes} {off : Nat} {v : Code} (h : input.drop off = le16 v ++ rest) :
    readU16 input off = v := by
  rw [readU16, memRead, memReadBytes_of_drop h (length_le16 v), leNat_le16, BitVec.ofNat_toNat, BitVec.setWidth_eq]

/-- Reading a `u32` the stream holds. -/
theorem readU32_of_drop {input rest : Bytes} {off : Nat} {v : U32} (h : input.drop off = le32 v ++ rest) :
    readU32 input off = v := by
  rw [readU32, memRead, memReadBytes_of_drop h (length_le32 v), leNat_le32, BitVec.ofNat_toNat, BitVec.setWidth_eq]

/-- Reading a byte the stream holds. -/
theorem readU8_of_drop {input rest : Bytes} {off : Nat} {b : Byte} (h : input.drop off = b :: rest) :
    readU8 input off = b := by
  rw [readU8, memRead, memReadBytes_of_drop (n := 1) (d := [b]) h rfl]
  simp [leNat]

/-- Reading a tag the stream holds (R44). -/
theorem readTag_of_drop {input rest : Bytes} {off : Nat} {t : Tag} (h : input.drop off = tagBytes t ++ rest) :
    readTag input off = t := by
  have h1 : input.drop (off + 1) = t.b1 :: t.b2 :: t.b3 :: rest := drop_of_drop (d := [t.b0]) h rfl
  have h2 : input.drop (off + 2) = t.b2 :: t.b3 :: rest := drop_of_drop (d := [t.b0, t.b1]) h rfl
  have h3 : input.drop (off + 3) = t.b3 :: rest := drop_of_drop (d := [t.b0, t.b1, t.b2]) h rfl
  have h0 : input.drop off = t.b0 :: t.b1 :: t.b2 :: t.b3 :: rest := h
  simp [readTag, readU8_of_drop h0, readU8_of_drop h1, readU8_of_drop h2, readU8_of_drop h3]

/-- A `u16` that lies within the stream is two of its bytes. -/
theorem drop_eq_readU16 {input : Bytes} {off : Nat} (h : off + 2 ≤ input.length) :
    input.drop off = le16 (readU16 input off) ++ input.drop (off + 2) := by
  match hd : input.drop off with
  | b0 :: b1 :: rest =>
    have hr : readU16 input off = BitVec.ofNat 16 (leNat [b0, b1]) := by
      rw [readU16, memRead, memReadBytes_of_drop (n := 2) (d := [b0, b1]) hd rfl]
    rw [hr, le16_leNat, drop_of_drop (n := 2) (d := [b0, b1]) hd rfl]
    rfl
  | [] => have := congrArg List.length hd; simp at this; omega
  | [_] => have := congrArg List.length hd; simp at this; omega

/-- A `u32` that lies within the stream is four of its bytes. -/
theorem drop_eq_readU32 {input : Bytes} {off : Nat} (h : off + 4 ≤ input.length) :
    input.drop off = le32 (readU32 input off) ++ input.drop (off + 4) := by
  match hd : input.drop off with
  | b0 :: b1 :: b2 :: b3 :: rest =>
    have hr : readU32 input off = BitVec.ofNat 32 (leNat [b0, b1, b2, b3]) := by
      rw [readU32, memRead, memReadBytes_of_drop (n := 4) (d := [b0, b1, b2, b3]) hd rfl]
    rw [hr, le32_leNat, drop_of_drop (n := 4) (d := [b0, b1, b2, b3]) hd rfl]
    rfl
  | [] => have := congrArg List.length hd; simp at this; omega
  | [_] => have := congrArg List.length hd; simp at this; omega
  | [_, _] => have := congrArg List.length hd; simp at this; omega
  | [_, _, _] => have := congrArg List.length hd; simp at this; omega

/-- A tag that lies within the stream is four of its bytes. -/
theorem drop_eq_readTag {input : Bytes} {off : Nat} (h : off + 4 ≤ input.length) :
    input.drop off = tagBytes (readTag input off) ++ input.drop (off + 4) := by
  match hd : input.drop off with
  | b0 :: b1 :: b2 :: b3 :: rest =>
    rw [readTag_of_drop (t := ⟨b0, b1, b2, b3⟩) hd, drop_of_drop (n := 4) (d := [b0, b1, b2, b3]) hd rfl]
    rfl
  | [] => have := congrArg List.length hd; simp at this; omega
  | [_] => have := congrArg List.length hd; simp at this; omega
  | [_, _] => have := congrArg List.length hd; simp at this; omega
  | [_, _, _] => have := congrArg List.length hd; simp at this; omega

/-- The cell view of a stream is canonical: its addresses strictly rise. -/
theorem wf_streamCells (input : Bytes) (base : Nat) : Memory.wf (streamCells input base) = true := by
  induction input generalizing base with
  | nil => rfl
  | cons b rest ih =>
    cases rest with
    | nil => rfl
    | cons c rest => simpa [streamCells, Memory.wf] using ih (base + 1)

/-- The cell at offset `i` holds the byte the stream reads there, and there are no other cells. -/
theorem streamCells_getElem? (input : Bytes) (base i : Nat) :
    (streamCells input base)[i]? = input[i]?.map fun b => (base + i, b) := by
  induction input generalizing base i with
  | nil => simp [streamCells]
  | cons b rest ih =>
    cases i with
    | zero => simp [streamCells]
    | succ i =>
      simp only [streamCells, List.getElem?_cons_succ, ih]
      congr 1; funext c; congr 1; omega

/-- An offset that fits the register is recorded in it. -/
theorem records_atOffset (off : Nat) : Records off (atOffset off) := by
  intro h
  rw [atOffset, if_pos h, BitVec.toNat_ofNat, Nat.mod_eq_of_lt h]

end Sys2Proof.Laws
end

