-- ==== Sys2Proof/Laws/Quantizer.lean ====
section
/-! SUPPORT. The quantizer: the values of `qenc` and `qdec` in numbers, and the two round trips (40_color_codec.md). -/
namespace Sys2Proof.Laws
open Sys2Proof.Machine

theorem bucket_lt (c : Byte) : bucket c < 8 := by
  have := c.isLt
  simp only [bucket, Config.bucketDiv]
  omega

theorem opaqueCode_le {rb gb bb : Nat} (hr : rb < 8) (hg : gb < 8) (hb : bb < 8) : opaqueCode rb gb bb ≤ 512 := by
  simp only [opaqueCode]; omega

/-- The code of a transparent pixel. -/
theorem qenc_transparent {p : Pixel} (h : p.a = 0#8) : qenc p = 0#16 := by simp [qenc, h]

/-- The code of an opaque pixel, as a number (R81). -/
theorem toNat_qenc_opaque {p : Pixel} (h : p.a ≠ 0#8) :
    (qenc p).toNat = opaqueCode (bucket p.r) (bucket p.g) (bucket p.b) := by
  have := opaqueCode_le (bucket_lt p.r) (bucket_lt p.g) (bucket_lt p.b)
  simp [qenc, h]
  omega

/-- Every code QENC produces is at most 512 (R82). -/
theorem qenc_le (p : Pixel) : (qenc p).toNat ≤ 512 := by
  by_cases h : p.a = 0#8
  · simp [qenc_transparent h]
  · rw [toNat_qenc_opaque h]
    exact opaqueCode_le (bucket_lt _) (bucket_lt _) (bucket_lt _)

theorem qenc_ne_zero {p : Pixel} (h : p.a ≠ 0#8) : qenc p ≠ 0#16 := by
  intro h0
  have h1 := toNat_qenc_opaque h
  rw [h0] at h1
  simp [opaqueCode] at h1
  omega

theorem toNat_channelOf {q : Nat} (h : q < 8) : (channelOf q).toNat = q * 32 := by
  simp [channelOf, floor32, Config.bucketDiv]
  omega

theorem bucket_channelOf {q : Nat} (h : q < 8) : bucket (channelOf q) = q := by
  rw [bucket, toNat_channelOf h, Config.bucketDiv]
  omega

/-- `qdec` in range (R83). -/
theorem qdec_ok {limit : DecodeMax} {c : Code} {idx : BitVec 16} {off : BitVec 64}
    (h : c.toNat ≤ decodeLimit limit) : qdec limit c idx off = .ok (codeColor c) := by
  have h' : ¬ decodeLimit limit < c.toNat := by omega
  simp only [qdec, h', if_false, codeColor]
  split <;> rfl

/-- `qdec` out of range (R83). -/
theorem qdec_error {limit : DecodeMax} {c : Code} {idx : BitVec 16} {off : BitVec 64}
    (h : decodeLimit limit < c.toNat) : qdec limit c idx off = .error ⟨.codeRange, idx, off⟩ := by
  simp [qdec, h]

/-- `qdec` answers a color exactly when the code is in range. -/
theorem qdec_eq_ok {limit : DecodeMax} {c : Code} {idx : BitVec 16} {off : BitVec 64} {p : Pixel}
    (h : qdec limit c idx off = .ok p) : c.toNat ≤ decodeLimit limit ∧ p = codeColor c := by
  by_cases hc : c.toNat ≤ decodeLimit limit
  · rw [qdec_ok hc] at h; injection h with h; exact ⟨hc, h.symm⟩
  · rw [qdec_error (by omega)] at h; cases h

theorem decodeLimit_le (limit : DecodeMax) : decodeLimit limit ≤ 512 := by cases limit <;> decide

/-- The color of an opaque code is its three buckets' floors. -/
theorem opaqueColor_opaqueCode {rb gb bb : Nat} (hg : gb < 8) (hb : bb < 8) :
    opaqueColor (opaqueCode rb gb bb) = ⟨channelOf rb, channelOf gb, channelOf bb, 255#8⟩ := by
  have h1 : (opaqueCode rb gb bb - 1) / 64 = rb := by simp only [opaqueCode]; omega
  have h2 : (opaqueCode rb gb bb - 1) % 64 / 8 = gb := by simp only [opaqueCode]; omega
  have h3 : (opaqueCode rb gb bb - 1) % 8 = bb := by simp only [opaqueCode]; omega
  simp [opaqueColor, h1, h2, h3]

/-- The color of an opaque pixel's code: the bucket-floor of each channel (R84). -/
theorem codeColor_qenc {p : Pixel} (h : p.a ≠ 0#8) :
    codeColor (qenc p) = ⟨channelOf (bucket p.r), channelOf (bucket p.g), channelOf (bucket p.b), 255#8⟩ := by
  rw [codeColor, if_neg (qenc_ne_zero h), toNat_qenc_opaque h,
    opaqueColor_opaqueCode (bucket_lt _) (bucket_lt _)]

/-- Encoding the color of a code in range gives the code back (R85). -/
theorem qenc_codeColor {c : Code} (h : c.toNat ≤ 512) : qenc (codeColor c) = c := by
  by_cases h0 : c = 0#16
  · simp [codeColor, h0, qenc]
  · have hpos : 0 < c.toNat := by
      rcases Nat.eq_zero_or_pos c.toNat with hz | hz
      · exact absurd (BitVec.eq_of_toNat_eq (by simpa using hz)) h0
      · exact hz
    apply BitVec.eq_of_toNat_eq
    rw [codeColor, if_neg h0, toNat_qenc_opaque (by simp [opaqueColor])]
    simp only [opaqueColor]
    rw [bucket_channelOf (by omega), bucket_channelOf (by omega), bucket_channelOf (by omega), opaqueCode]
    omega

end Sys2Proof.Laws
end

