-- ==== Sys2Proof/Laws/Encode.lean ====
section
/-! SUPPORT. The encode path: what `tagOf`, `countCheck`, `buildRecord` and `build` answer, said once
(41_container_encode.md). -/
namespace Sys2Proof.Laws
open Sys2Proof.Machine

/-- A name whose first four characters are ASCII has a tag, and its bytes are the stored name (R90). -/
theorem tagOf_ascii {name : List Char} (idx : BitVec 16) (h : ∀ c ∈ name.take 4, c.toNat ≤ 0x7F) :
    ∃ t, tagOf name idx = .ok t ∧ tagBytes t = storedName name := by
  have hall : (name.take Config.nameLen).all isAscii = true := by
    rw [List.all_eq_true]
    intro c hc
    simpa [isAscii] using h c hc
  refine ⟨_, by rw [tagOf, if_pos hall], ?_⟩
  match name with
  | [] => rfl
  | [_] => rfl
  | [_, _] => rfl
  | [_, _, _] => rfl
  | _ :: _ :: _ :: _ :: rest => simp [tagBytes, tagChar, storedName]

/-- A name with another character among its first four has none (R90). -/
theorem tagOf_nonAscii {name : List Char} (idx : BitVec 16) {c : Char} (hc : c ∈ name.take 4) (h : 0x7F < c.toNat) :
    tagOf name idx = .error ⟨.nonAsciiName, idx, noOffset⟩ := by
  rw [tagOf, if_neg]
  intro hall
  have := List.all_eq_true.mp hall c hc
  simp [isAscii] at this
  omega

/-- The two cases of a name. -/
theorem ascii_or_not (name : List Char) :
    (∀ c ∈ name.take 4, c.toNat ≤ 0x7F) ∨ ∃ c ∈ name.take 4, 0x7F < c.toNat := by
  by_cases h : ∀ c ∈ name.take 4, c.toNat ≤ 0x7F
  · exact .inl h
  · simp only [Classical.not_forall] at h
    obtain ⟨c, hc, hn⟩ := h
    exact .inr ⟨c, hc, by omega⟩

/-- A name that has a tag is ASCII in its first four characters. -/
theorem tagOf_eq_ok {name : List Char} {idx : BitVec 16} {t : Tag} (h : tagOf name idx = .ok t) :
    (∀ c ∈ name.take 4, c.toNat ≤ 0x7F) ∧ tagBytes t = storedName name := by
  rcases ascii_or_not name with ha | ⟨c, hc, hn⟩
  · obtain ⟨t', ht, hb⟩ := tagOf_ascii idx ha
    rw [ht] at h; injection h with h
    exact ⟨ha, h ▸ hb⟩
  · rw [tagOf_nonAscii idx hc hn] at h; cases h

/-- The tag of a name does not depend on the index its error would record. -/
theorem tagOf_ok_index {name : List Char} {idx idx' : BitVec 16} {t : Tag} (h : tagOf name idx = .ok t) :
    tagOf name idx' = .ok t := by
  obtain ⟨ha, hb⟩ := tagOf_eq_ok h
  obtain ⟨t', ht, hb'⟩ := tagOf_ascii idx' ha
  have : tagBytes t' = tagBytes t := hb'.trans hb.symm
  cases t; cases t'
  simp [tagBytes] at this
  simp [ht, this]

theorem countCheck_overflow {w h : U32} (n : Nat) (idx : BitVec 16) (ho : 0xFFFFFFFF < w.toNat * h.toNat) :
    countCheck w h n idx = .error ⟨.pixelCountOverflow, idx, noOffset⟩ := by
  simp only [countCheck, Config.maxU32, ho, if_true]

theorem countCheck_mismatch {w h : U32} {n : Nat} (idx : BitVec 16) (ho : w.toNat * h.toNat ≤ 0xFFFFFFFF)
    (hm : w.toNat * h.toNat ≠ n) : countCheck w h n idx = .error ⟨.pixelCountMismatch, idx, noOffset⟩ := by
  rw [countCheck, Config.maxU32, if_neg (by omega), if_pos hm]

theorem countCheck_ok {w h : U32} {n : Nat} (idx : BitVec 16) (ho : w.toNat * h.toNat ≤ 0xFFFFFFFF)
    (hm : w.toNat * h.toNat = n) : countCheck w h n idx = .ok (BitVec.ofNat 32 (w.toNat * h.toNat)) := by
  rw [countCheck, Config.maxU32, if_neg (by omega), if_neg (by simp [hm])]

/-- The image is good: its count is right and its name has a tag (R101). -/
theorem imageError_eq_none {im : Image} : imageError im = none ↔
    im.width.toNat * im.height.toNat ≤ 0xFFFFFFFF ∧ im.width.toNat * im.height.toNat = im.pixels.length ∧
      ∀ c ∈ im.name.take 4, c.toNat ≤ 0x7F := by
  unfold imageError
  split
  · simp; omega
  · split
    · simp; omega
    · split
      · rename_i h1 h2 h3
        simp only [List.any_eq_true, decide_eq_true_eq] at h3
        obtain ⟨c, hc, hn⟩ := h3
        simp only [reduceCtorEq, false_iff]
        intro h
        have := h.2.2 c hc
        omega
      · rename_i h1 h2 h3
        simp only [List.any_eq_true, decide_eq_true_eq, not_exists, not_and] at h3
        simp only [true_iff]
        refine ⟨by omega, by omega, fun c hc => ?_⟩
        have := h3 c hc
        omega

/-- A good image gives its record (R99). -/
theorem buildRecord_ok (k : Nat) {im : Image} (h : imageError im = none) :
    buildRecord k im = .ok (imageBytes im) := by
  obtain ⟨ho, hm, ha⟩ := imageError_eq_none.mp h
  obtain ⟨t, ht, hb⟩ := tagOf_ascii (atIndex k) ha
  simp only [buildRecord, countCheck_ok _ ho hm, ht]
  simp [imageBytes, descBytes, ppack, hb, bind, Except.bind, pure, Except.pure]

/-- Another image gives its first error (R101). -/
theorem buildRecord_error (k : Nat) {im : Image} {st : Byte} (h : imageError im = some st) :
    ∃ reason, buildRecord k im = .error ⟨reason, atIndex k, noOffset⟩ ∧ statusErr reason = st := by
  unfold imageError at h
  split at h
  · rename_i ho
    injection h with h
    exact ⟨.pixelCountOverflow, by simp [buildRecord, countCheck_overflow _ _ ho, bind, Except.bind], by
      rw [← h]; decide⟩
  · split at h
    · rename_i ho hm
      injection h with h
      exact ⟨.pixelCountMismatch, by
        simp [buildRecord, countCheck_mismatch _ (Nat.le_of_not_lt ho) hm, bind, Except.bind], by
        rw [← h]; decide⟩
    · split at h
      · rename_i ho hm ha
        simp only [List.any_eq_true, decide_eq_true_eq] at ha
        obtain ⟨c, hc, hn⟩ := ha
        injection h with h
        exact ⟨.nonAsciiName, by
          simp [buildRecord, countCheck_ok _ (Nat.le_of_not_lt ho) (Decidable.not_not.mp hm), tagOf_nonAscii _ hc hn, bind,
            Except.bind], by rw [← h]; decide⟩
      · cases h

/-- Good images give their records, in order (R99, R102). -/
theorem buildRecords_ok (k : Nat) {images : List Image} (h : ∀ im ∈ images, imageError im = none) :
    buildRecords k images = .ok (images.flatMap imageBytes) := by
  induction images generalizing k with
  | nil => rfl
  | cons im rest ih =>
    simp only [buildRecords, buildRecord_ok k (h im (by simp)),
      ih (k + 1) (fun x hx => h x (by simp [hx]))]
    rfl

/-- The first bad image ends BUILD with its error (R101). -/
theorem buildRecords_error (k : Nat) {before after : List Image} {im : Image} {st : Byte}
    (h : ∀ x ∈ before, imageError x = none) (he : imageError im = some st) :
    ∃ reason, buildRecords k (before ++ im :: after) = .error ⟨reason, atIndex (k + before.length), noOffset⟩ ∧
      statusErr reason = st := by
  induction before generalizing k with
  | nil =>
    obtain ⟨reason, hr, hs⟩ := buildRecord_error k he
    exact ⟨reason, by simp [buildRecords, hr, bind, Except.bind], hs⟩
  | cons x rest ih =>
    obtain ⟨reason, hr, hs⟩ := ih (k + 1) (fun y hy => h y (by simp [hy]))
    refine ⟨reason, ?_, hs⟩
    simp only [List.cons_append, buildRecords, buildRecord_ok k (h x (by simp)), hr]
    simp [bind, Except.bind, Nat.add_comm, Nat.add_left_comm]

/-- A list of images is good, or has a first bad image. -/
theorem images_good_or_first_bad (images : List Image) :
    (∀ im ∈ images, imageError im = none) ∨
    ∃ before im after st, images = before ++ im :: after ∧ (∀ x ∈ before, imageError x = none) ∧
      imageError im = some st := by
  induction images with
  | nil => exact .inl (by simp)
  | cons x rest ih =>
    cases hx : imageError x with
    | some st => exact .inr ⟨[], x, rest, st, rfl, by simp, hx⟩
    | none =>
      rcases ih with hg | ⟨before, im, after, st, he, hb, hs⟩
      · exact .inl (by simpa [hx] using hg)
      · exact .inr ⟨x :: before, im, after, st, by simp [he], by simpa [hx] using hb, hs⟩

theorem hpack_ok (cfg : Config) {count : Nat} (h : count ≤ 255) :
    hpack cfg count = .ok (tagBytes cfg.magic ++ [BitVec.ofNat 8 count]) := by
  rw [hpack, Config.maxImages, if_neg (by omega)]

theorem hpack_error (cfg : Config) {count : Nat} (h : 255 < count) :
    hpack cfg count = .error ⟨.tooManyImages, noIndex, noOffset⟩ := by
  rw [hpack, Config.maxImages, if_pos h]

/-- BUILD of at most 255 good images (R99). -/
theorem build_ok (cfg : Config) {images : List Image} (hl : images.length ≤ 255)
    (h : ∀ im ∈ images, imageError im = none) :
    build cfg images =
      .ok (tagBytes cfg.magic ++ [BitVec.ofNat 8 images.length] ++ images.flatMap imageBytes) := by
  simp [build, hpack_ok cfg hl, buildRecords_ok 0 h, bind, Except.bind, pure, Except.pure]

/-- BUILD of too many images (R101). -/
theorem build_tooMany (cfg : Config) {images : List Image} (hl : 255 < images.length) :
    build cfg images = .error ⟨.tooManyImages, noIndex, noOffset⟩ := by
  simp [build, hpack_error cfg hl, bind, Except.bind]

/-- BUILD with a first bad image (R101). -/
theorem build_error (cfg : Config) {before after : List Image} {im : Image} {st : Byte}
    (hl : (before ++ im :: after).length ≤ 255) (h : ∀ x ∈ before, imageError x = none)
    (he : imageError im = some st) :
    ∃ reason, build cfg (before ++ im :: after) = .error ⟨reason, atIndex before.length, noOffset⟩ ∧
      statusErr reason = st := by
  obtain ⟨reason, hr, hs⟩ := buildRecords_error 0 (after := after) h he
  exact ⟨reason, by simp only [build, hpack_ok cfg hl, hr]; simp [bind, Except.bind], hs⟩

/-- BUILD answers a container only for at most 255 good images. -/
theorem build_eq_ok {cfg : Config} {images : List Image} {rom : Bytes} (h : build cfg images = .ok rom) :
    images.length ≤ 255 ∧ (∀ im ∈ images, imageError im = none) ∧
      rom = tagBytes cfg.magic ++ [BitVec.ofNat 8 images.length] ++ images.flatMap imageBytes := by
  by_cases hl : images.length ≤ 255
  · rcases images_good_or_first_bad images with hg | ⟨before, im, after, st, he, hb, hs⟩
    · rw [build_ok cfg hl hg] at h
      injection h with h
      exact ⟨hl, hg, h.symm⟩
    · subst he
      obtain ⟨reason, hr, _⟩ := build_error cfg hl hb hs
      rw [hr] at h; cases h
  · rw [build_tooMany cfg (by omega)] at h; cases h

theorem length_storedName (name : List Char) : (storedName name).length = 4 := by
  simp [storedName]; omega

theorem length_ppack (px : List Pixel) : (px.flatMap fun p => le16 (qenc p)).length = 2 * px.length := by
  induction px with
  | nil => rfl
  | cons p rest ih => simp [ih]; omega

/-- The length of an image's record (R103). -/
theorem length_imageBytes (im : Image) : (imageBytes im).length = 16 + 2 * im.pixels.length := by
  simp only [imageBytes, List.length_append, length_le32, length_storedName, length_ppack]

end Sys2Proof.Laws
end

