-- ==== Sys2Proof/Laws/Decode.lean ====
section
/-! SUPPORT. The decode path: what `hunpack`, `dunpack`, `punpack` and `parse` answer, said once, and how PARSE meets the
grammar of a container (42_container_decode.md). -/
namespace Sys2Proof.Laws
open Sys2Proof.Machine

/-! ### The primitives -/

theorem hunpack_badMagic (cfg : Config) {input : Bytes} (h : input.take 4 ≠ tagBytes cfg.magic) :
    hunpack cfg input = .error ⟨.badMagic, noIndex, 0#64⟩ := by
  unfold hunpack
  split
  · rfl
  · rw [if_pos (by simpa [memReadBytes] using h)]; rfl

theorem hunpack_prematureEos (cfg : Config) :
    hunpack cfg (tagBytes cfg.magic) = .error ⟨.prematureEos, noIndex, 4#64⟩ := by
  rw [hunpack, if_neg (by simp), if_neg (by simp [memReadBytes, tagBytes]), if_pos (by simp [Config.hdrLen])]
  rfl

theorem hunpack_ok (cfg : Config) (n : Byte) (rest : Bytes) :
    hunpack cfg (tagBytes cfg.magic ++ n :: rest) = .ok (n, 5) := by
  rw [hunpack, if_neg (by simp), if_neg (by simp [memReadBytes, List.take_left' (length_tagBytes _)]),
    if_neg (by simp [Config.hdrLen]; omega)]
  rw [readU8_of_drop (rest := rest)]
  · rfl
  · exact List.drop_left' (length_tagBytes _)

/-- The three cases of a stream's beginning (R110). -/
theorem stream_begins (magic : Tag) (input : Bytes) :
    input.take 4 ≠ tagBytes magic ∨ input = tagBytes magic ∨ ∃ n rest, input = tagBytes magic ++ n :: rest := by
  by_cases h : input.take 4 = tagBytes magic
  · right
    have hs := List.take_append_drop 4 input
    rw [h] at hs
    cases hd : input.drop 4 with
    | nil => left; rw [← hs, hd, List.append_nil]
    | cons n rest => right; exact ⟨n, rest, by rw [← hs, hd]⟩
  · exact .inl h

theorem dunpack_truncated (cfg : Config) {input : Bytes} {off : Nat} (idx : BitVec 16) (h : input.length < off + 16) :
    dunpack cfg input off idx = .error ⟨.truncDesc, idx, atOffset off⟩ := by
  rw [dunpack, Config.descLen, if_pos h]

/-- The condition under which DIM_MISMATCH is raised (R112). -/
abbrev DimBad (cfg : Config) (input : Bytes) (off : Nat) : Prop :=
  cfg.dimCheck = .reject ∧
    (readU32 input off).toNat ≠ (readU32 input (off + 8)).toNat * (readU32 input (off + 12)).toNat

theorem dunpack_mismatch (cfg : Config) {input : Bytes} {off : Nat} (idx : BitVec 16) (h : off + 16 ≤ input.length)
    (hd : DimBad cfg input off) : dunpack cfg input off idx = .error ⟨.dimMismatch, idx, atOffset off⟩ := by
  rw [dunpack, Config.descLen, if_neg (by omega), if_pos]
  exact ⟨hd.1, by simp [Descriptor.mismatched, readDescriptor, hd.2]⟩

theorem dunpack_ok (cfg : Config) {input : Bytes} {off : Nat} (idx : BitVec 16) (h : off + 16 ≤ input.length)
    (hd : ¬ DimBad cfg input off) : dunpack cfg input off idx = .ok (readDescriptor input off, off + 16) := by
  rw [dunpack, Config.descLen, if_neg (by omega), if_neg]
  intro hm
  exact hd ⟨hm.1, by simpa [Descriptor.mismatched, readDescriptor] using hm.2⟩

theorem dunpack_eq_ok {cfg : Config} {input : Bytes} {off : Nat} {idx : BitVec 16} {r : Descriptor × Nat}
    (h : dunpack cfg input off idx = .ok r) :
    off + 16 ≤ input.length ∧ ¬ DimBad cfg input off ∧ r = (readDescriptor input off, off + 16) := by
  by_cases hl : off + 16 ≤ input.length
  · by_cases hd : DimBad cfg input off
    · rw [dunpack_mismatch cfg idx hl hd] at h; cases h
    · rw [dunpack_ok cfg idx hl hd] at h; injection h with h
      exact ⟨hl, hd, h.symm⟩
  · rw [dunpack_truncated cfg idx (by omega)] at h; cases h

/-- Codes in range decode one by one (R116). -/
theorem unpackCodes_ok (limit : DecodeMax) (input : Bytes) (off : Nat) (idx : BitVec 16) (m i : Nat)
    (h : ∀ j < m, (readU16 input (off + 2 * (i + j))).toNat ≤ decodeLimit limit) :
    unpackCodes limit input off idx m i =
      .ok ((List.range m).map fun j => codeColor (readU16 input (off + 2 * (i + j)))) := by
  induction m generalizing i with
  | zero => rfl
  | succ m ih =>
    have h0 := h 0 (by omega)
    have hr := ih (i + 1) (fun j hj => by
      have := h (j + 1) (by omega)
      rwa [show i + (j + 1) = i + 1 + j by omega] at this)
    simp only [Nat.add_zero] at h0
    simp only [unpackCodes, Config.codeLen, qdec_ok h0, hr, List.range_succ_eq_map, List.map_cons, List.map_map]
    simp only [bind, Except.bind, pure, Except.pure, Nat.add_zero, Except.ok.injEq, List.cons.injEq, true_and]
    apply List.map_congr_left
    intro j _
    simp only [Function.comp, Nat.succ_eq_add_one]
    rw [show i + 1 + j = i + (j + 1) by omega]

/-- The first code out of range ends the block with its offset (R116). -/
theorem unpackCodes_error (limit : DecodeMax) (input : Bytes) (off : Nat) (idx : BitVec 16) (m i j : Nat) (hj : j < m)
    (hbad : decodeLimit limit < (readU16 input (off + 2 * (i + j))).toNat)
    (h : ∀ l < j, (readU16 input (off + 2 * (i + l))).toNat ≤ decodeLimit limit) :
    unpackCodes limit input off idx m i = .error ⟨.codeRange, idx, atOffset (off + 2 * (i + j))⟩ := by
  induction m generalizing i j with
  | zero => omega
  | succ m ih =>
    cases j with
    | zero =>
      simp only [Nat.add_zero] at hbad
      simp [unpackCodes, Config.codeLen, qdec_error hbad, bind, Except.bind]
    | succ j =>
      have h0 := h 0 (by omega)
      simp only [Nat.add_zero] at h0
      have hr := ih (i + 1) j (by omega) (by rwa [show i + 1 + j = i + (j + 1) by omega]) (fun l hl => by
        have := h (l + 1) (by omega)
        rwa [show i + (l + 1) = i + 1 + l by omega] at this)
      simp only [unpackCodes, Config.codeLen, qdec_ok h0, hr]
      simp only [bind, Except.bind]
      rw [show i + 1 + j = i + (j + 1) by omega]

/-- A block of codes is in range, or has a first code out of range. -/
theorem codes_good_or_first_bad (limit : DecodeMax) (input : Bytes) (off n : Nat) :
    (∀ j < n, (readU16 input (off + 2 * j)).toNat ≤ decodeLimit limit) ∨
    ∃ j < n, decodeLimit limit < (readU16 input (off + 2 * j)).toNat ∧
      ∀ l < j, (readU16 input (off + 2 * l)).toNat ≤ decodeLimit limit := by
  induction n with
  | zero => exact .inl (by omega)
  | succ n ih =>
    rcases ih with hg | ⟨j, hj, hb, hl⟩
    · by_cases hn : (readU16 input (off + 2 * n)).toNat ≤ decodeLimit limit
      · left
        intro j hj
        rcases Nat.lt_succ_iff_lt_or_eq.mp hj with h | h
        · exact hg j h
        · exact h ▸ hn
      · exact .inr ⟨n, by omega, by omega, hg⟩
    · exact .inr ⟨j, by omega, hb, hl⟩

theorem punpack_truncated (cfg : Config) {input : Bytes} {off n : Nat} (idx : BitVec 16)
    (h : input.length < off + 2 * n) : punpack cfg input off n idx = .error ⟨.truncPixels, idx, atOffset off⟩ := by
  rw [punpack, Config.codeLen, if_pos h]

theorem punpack_ok (cfg : Config) {input : Bytes} {off n : Nat} (idx : BitVec 16) (h : off + 2 * n ≤ input.length)
    (hg : ∀ j < n, (readU16 input (off + 2 * j)).toNat ≤ decodeLimit cfg.decodeMax) :
    punpack cfg input off n idx =
      .ok ((List.range n).map fun j => codeColor (readU16 input (off + 2 * j)), off + 2 * n) := by
  rw [punpack, Config.codeLen, if_neg (by omega), unpackCodes_ok _ _ _ _ _ _ (by simpa using hg)]
  simp [Except.map]

theorem punpack_codeRange (cfg : Config) {input : Bytes} {off n j : Nat} (idx : BitVec 16)
    (h : off + 2 * n ≤ input.length) (hj : j < n)
    (hbad : decodeLimit cfg.decodeMax < (readU16 input (off + 2 * j)).toNat)
    (hl : ∀ l < j, (readU16 input (off + 2 * l)).toNat ≤ decodeLimit cfg.decodeMax) :
    punpack cfg input off n idx = .error ⟨.codeRange, idx, atOffset (off + 2 * j)⟩ := by
  rw [punpack, Config.codeLen, if_neg (by omega),
    unpackCodes_error _ _ _ _ _ 0 j hj (by simpa using hbad) (by simpa using hl)]
  simp [Except.map]

theorem punpack_eq_ok {cfg : Config} {input : Bytes} {off n : Nat} {idx : BitVec 16} {r : List Pixel × Nat}
    (h : punpack cfg input off n idx = .ok r) :
    off + 2 * n ≤ input.length ∧ (∀ j < n, (readU16 input (off + 2 * j)).toNat ≤ decodeLimit cfg.decodeMax) ∧
      r = ((List.range n).map fun j => codeColor (readU16 input (off + 2 * j)), off + 2 * n) := by
  by_cases hl : off + 2 * n ≤ input.length
  · rcases codes_good_or_first_bad cfg.decodeMax input off n with hg | ⟨j, hj, hb, hf⟩
    · rw [punpack_ok cfg idx hl hg] at h; injection h with h
      exact ⟨hl, hg, h.symm⟩
    · rw [punpack_codeRange cfg idx hl hj hb hf] at h; cases h
  · rw [punpack_truncated cfg idx (by omega)] at h; cases h

/-! ### One record -/

/-- A record of the stream at an offset: it lies within the stream, its dimensions are accepted and its codes are in
range (R112, R116). -/
structure GoodRecord (cfg : Config) (input : Bytes) (off : Nat) : Prop where
  descFits : off + 16 ≤ input.length
  dimOk : ¬ DimBad cfg input off
  codesFit : off + 16 + 2 * (readU32 input off).toNat ≤ input.length
  codesOk : ∀ j < (readU32 input off).toNat,
    (readU16 input (off + 16 + 2 * j)).toNat ≤ decodeLimit cfg.decodeMax

/-- The record the stream holds at an offset. -/
def recordAt (input : Bytes) (off : Nat) : Record where
  nameTag := readTag input (off + 4)
  name := untag (readTag input (off + 4))
  width := readU32 input (off + 8)
  height := readU32 input (off + 12)
  pixels := (List.range (readU32 input off).toNat).map fun j => codeColor (readU16 input (off + 16 + 2 * j))

/-- The offset after the record at an offset (R47). -/
def recordEnd (input : Bytes) (off : Nat) : Nat := off + 16 + 2 * (readU32 input off).toNat

theorem parseRecord_ok {cfg : Config} {input : Bytes} {off : Nat} (k : Nat) (h : GoodRecord cfg input off) :
    parseRecord cfg input k off = .ok (recordAt input off, recordEnd input off) := by
  have hp := punpack_ok cfg (n := (readU32 input off).toNat) (atIndex k) h.codesFit h.codesOk
  simp only [parseRecord, dunpack_ok cfg _ h.descFits h.dimOk, readDescriptor, bind, Except.bind, hp]
  rfl

theorem parseRecord_eq_ok {cfg : Config} {input : Bytes} {off k : Nat} {r : Record × Nat}
    (h : parseRecord cfg input k off = .ok r) :
    GoodRecord cfg input off ∧ r = (recordAt input off, recordEnd input off) := by
  have hgood : GoodRecord cfg input off := by
    unfold parseRecord at h
    cases hd : dunpack cfg input off (atIndex k) with
    | error e => rw [hd] at h; cases h
    | ok d =>
      obtain ⟨hl, hb, rfl⟩ := dunpack_eq_ok hd
      rw [hd] at h
      simp only [bind, Except.bind, readDescriptor] at h
      cases hp : punpack cfg input (off + 16) (readU32 input off).toNat (atIndex k) with
      | error e => rw [hp] at h; cases h
      | ok p =>
        obtain ⟨hl', hg, _⟩ := punpack_eq_ok hp
        exact ⟨hl, hb, hl', hg⟩
  refine ⟨hgood, ?_⟩
  rw [parseRecord_ok k hgood] at h
  injection h with h
  exact h.symm

theorem parseRecord_truncDesc (cfg : Config) {input : Bytes} {off : Nat} (k : Nat) (h : input.length < off + 16) :
    parseRecord cfg input k off = .error ⟨.truncDesc, atIndex k, atOffset off⟩ := by
  simp [parseRecord, dunpack_truncated cfg _ h, bind, Except.bind]

theorem parseRecord_dimMismatch (cfg : Config) {input : Bytes} {off : Nat} (k : Nat) (h : off + 16 ≤ input.length)
    (hd : DimBad cfg input off) :
    parseRecord cfg input k off = .error ⟨.dimMismatch, atIndex k, atOffset off⟩ := by
  simp [parseRecord, dunpack_mismatch cfg _ h hd, bind, Except.bind]

theorem parseRecord_truncPixels (cfg : Config) {input : Bytes} {off : Nat} (k : Nat) (h : off + 16 ≤ input.length)
    (hd : ¬ DimBad cfg input off) (ht : input.length < off + 16 + 2 * (readU32 input off).toNat) :
    parseRecord cfg input k off = .error ⟨.truncPixels, atIndex k, atOffset (off + 16)⟩ := by
  simp only [parseRecord, dunpack_ok cfg _ h hd, readDescriptor, bind, Except.bind,
    punpack_truncated cfg (atIndex k) ht]

theorem parseRecord_codeRange (cfg : Config) {input : Bytes} {off j : Nat} (k : Nat) (h : off + 16 ≤ input.length)
    (hd : ¬ DimBad cfg input off) (ht : off + 16 + 2 * (readU32 input off).toNat ≤ input.length)
    (hj : j < (readU32 input off).toNat)
    (hbad : decodeLimit cfg.decodeMax < (readU16 input (off + 16 + 2 * j)).toNat)
    (hl : ∀ l < j, (readU16 input (off + 16 + 2 * l)).toNat ≤ decodeLimit cfg.decodeMax) :
    parseRecord cfg input k off = .error ⟨.codeRange, atIndex k, atOffset (off + 16 + 2 * j)⟩ := by
  simp only [parseRecord, dunpack_ok cfg _ h hd, readDescriptor, bind, Except.bind,
    punpack_codeRange cfg (atIndex k) ht hj hbad hl]

/-! ### The walk over records -/

/-- `m` good records from an offset: what they are, and where they end. -/
def GoodRecords (cfg : Config) (input : Bytes) : Nat → Nat → List Record → Nat → Prop
  | 0, off, recs, last => recs = [] ∧ last = off
  | m + 1, off, recs, last => GoodRecord cfg input off ∧
      ∃ rest, recs = recordAt input off :: rest ∧ GoodRecords cfg input m (recordEnd input off) rest last

theorem parseRecords_ok {cfg : Config} {input : Bytes} {m : Nat} (k : Nat) {off last : Nat} {recs : List Record}
    (h : GoodRecords cfg input m off recs last) : parseRecords cfg input m k off = .ok recs := by
  induction m generalizing k off recs with
  | zero => simp [parseRecords, h.1]
  | succ m ih =>
    obtain ⟨hg, rest, rfl, hr⟩ := h
    simp only [parseRecords, parseRecord_ok k hg, bind, Except.bind, ih (k + 1) hr]
    rfl

theorem parseRecords_eq_ok {cfg : Config} {input : Bytes} {m k off : Nat} {recs : List Record}
    (h : parseRecords cfg input m k off = .ok recs) : ∃ last, GoodRecords cfg input m off recs last := by
  induction m generalizing k off recs with
  | zero => injection h with h; exact ⟨off, h.symm, rfl⟩
  | succ m ih =>
    unfold parseRecords at h
    cases hp : parseRecord cfg input k off with
    | error e => rw [hp] at h; cases h
    | ok r =>
      obtain ⟨hg, rfl⟩ := parseRecord_eq_ok hp
      rw [hp] at h
      simp only [bind, Except.bind] at h
      cases hr : parseRecords cfg input m (k + 1) (recordEnd input off) with
      | error e => rw [hr] at h; cases h
      | ok rest =>
        rw [hr] at h
        injection h with h
        obtain ⟨last, hl⟩ := ih hr
        exact ⟨last, hg, rest, h.symm, hl⟩

/-- When `j` records are good and the next one fails, the loop fails with that record's error (R121). -/
theorem parseRecords_error {cfg : Config} {input : Bytes} {m j : Nat} (k : Nat) {off last : Nat} {recs : List Record}
    {e : CmdError} (hj : j < m) (h : GoodRecords cfg input j off recs last)
    (he : parseRecord cfg input (k + j) last = .error e) : parseRecords cfg input m k off = .error e := by
  induction j generalizing m k off recs with
  | zero =>
    obtain ⟨rfl, rfl⟩ := h
    cases m with
    | zero => omega
    | succ m =>
      simp only [Nat.add_zero] at he
      simp [parseRecords, he, bind, Except.bind]
  | succ j ih =>
    obtain ⟨hg, rest, rfl, hr⟩ := h
    cases m with
    | zero => omega
    | succ m =>
      have hn := ih (k + 1) (m := m) (by omega) hr (by rwa [show k + 1 + j = k + (j + 1) by omega])
      simp [parseRecords, parseRecord_ok k hg, hn, bind, Except.bind]

theorem parse_badMagic (cfg : Config) {input : Bytes} (h : input.take 4 ≠ tagBytes cfg.magic) :
    parse cfg input = .error ⟨.badMagic, noIndex, 0#64⟩ := by
  simp [parse, hunpack_badMagic cfg h, bind, Except.bind]

theorem parse_prematureEos (cfg : Config) :
    parse cfg (tagBytes cfg.magic) = .error ⟨.prematureEos, noIndex, 4#64⟩ := by
  simp [parse, hunpack_prematureEos cfg, bind, Except.bind]

theorem parse_of_header (cfg : Config) (n : Byte) (rest : Bytes) :
    parse cfg (tagBytes cfg.magic ++ n :: rest) =
      parseRecords cfg (tagBytes cfg.magic ++ n :: rest) n.toNat 0 5 := by
  simp [parse, hunpack_ok cfg n rest, bind, Except.bind]

/-- PARSE succeeds exactly on a header followed by as many good records (R119). -/
theorem parse_eq_ok {cfg : Config} {input : Bytes} {recs : List Record} :
    parse cfg input = .ok recs ↔
      ∃ n rest last, input = tagBytes cfg.magic ++ n :: rest ∧ GoodRecords cfg input n.toNat 5 recs last := by
  constructor
  · intro h
    rcases stream_begins cfg.magic input with hb | rfl | ⟨n, rest, rfl⟩
    · rw [parse_badMagic cfg hb] at h; cases h
    · rw [parse_prematureEos] at h; cases h
    · rw [parse_of_header] at h
      obtain ⟨last, hl⟩ := parseRecords_eq_ok h
      exact ⟨n, rest, last, rfl, hl⟩
  · rintro ⟨n, rest, last, rfl, h⟩
    rw [parse_of_header, parseRecords_ok 0 h]

end Sys2Proof.Laws
end

