-- ==== Sys2Proof/Laws/State.lean ====
section
/-! SUPPORT. The fields of `State` after each update: one lemma per field per update, so that no later proof unfolds a
record update. -/
namespace Sys2Proof.Laws
open Sys2Proof.Machine

@[simp] theorem completeOk_cfg (v : Payload) (s : State) : (completeOk v s).cfg = s.cfg := rfl
@[simp] theorem completeOk_status (v : Payload) (s : State) : (completeOk v s).status = statusOk := rfl
@[simp] theorem completeOk_errIndex (v : Payload) (s : State) : (completeOk v s).errIndex = none := rfl
@[simp] theorem completeOk_errOffset (v : Payload) (s : State) : (completeOk v s).errOffset = none := rfl
@[simp] theorem completeOk_payload (v : Payload) (s : State) : (completeOk v s).payload = some v := rfl
@[simp] theorem completeOk_inProgress (v : Payload) (s : State) : (completeOk v s).inProgress = none := rfl
@[simp] theorem completeOk_opnds (v : Payload) (s : State) : (completeOk v s).opnds = s.opnds := rfl
@[simp] theorem completeOk_host (v : Payload) (s : State) : (completeOk v s).host = s.host := rfl
@[simp] theorem completeOk_hostRead (v : Payload) (s : State) : (completeOk v s).hostRead = s.hostRead := rfl
@[simp] theorem completeOk_freeCount (v : Payload) (s : State) : (completeOk v s).freeCount = s.freeCount := rfl

@[simp] theorem raiseError_cfg (e : CmdError) (s : State) : (raiseError e s).cfg = s.cfg := rfl
@[simp] theorem raiseError_status (e : CmdError) (s : State) : (raiseError e s).status = statusErr e.reason := rfl
@[simp] theorem raiseError_errIndex (e : CmdError) (s : State) : (raiseError e s).errIndex = some e.index := rfl
@[simp] theorem raiseError_errOffset (e : CmdError) (s : State) : (raiseError e s).errOffset = some e.offset := rfl
@[simp] theorem raiseError_payload (e : CmdError) (s : State) : (raiseError e s).payload = none := rfl
@[simp] theorem raiseError_inProgress (e : CmdError) (s : State) : (raiseError e s).inProgress = none := rfl
@[simp] theorem raiseError_opnds (e : CmdError) (s : State) : (raiseError e s).opnds = s.opnds := rfl
@[simp] theorem raiseError_host (e : CmdError) (s : State) : (raiseError e s).host = s.host := rfl
@[simp] theorem raiseError_hostRead (e : CmdError) (s : State) : (raiseError e s).hostRead = s.hostRead := rfl
@[simp] theorem raiseError_freeCount (e : CmdError) (s : State) : (raiseError e s).freeCount = s.freeCount := rfl

@[simp] theorem startCommand_cfg (cmd : Byte) (s : State) : (startCommand cmd s).cfg = s.cfg := rfl
@[simp] theorem startCommand_status (cmd : Byte) (s : State) : (startCommand cmd s).status = statusAtIssue s.status := rfl
@[simp] theorem startCommand_errIndex (cmd : Byte) (s : State) : (startCommand cmd s).errIndex = none := rfl
@[simp] theorem startCommand_errOffset (cmd : Byte) (s : State) : (startCommand cmd s).errOffset = none := rfl
@[simp] theorem startCommand_payload (cmd : Byte) (s : State) : (startCommand cmd s).payload = none := rfl
@[simp] theorem startCommand_inProgress (cmd : Byte) (s : State) : (startCommand cmd s).inProgress = some ⟨cmd, initialWork cmd s⟩ := rfl
@[simp] theorem startCommand_opnds (cmd : Byte) (s : State) : (startCommand cmd s).opnds = s.opnds := rfl
@[simp] theorem startCommand_host (cmd : Byte) (s : State) : (startCommand cmd s).host = s.host := rfl
@[simp] theorem startCommand_hostRead (cmd : Byte) (s : State) : (startCommand cmd s).hostRead = s.hostRead := rfl
@[simp] theorem startCommand_freeCount (cmd : Byte) (s : State) : (startCommand cmd s).freeCount = s.freeCount + 1 := rfl

@[simp] theorem workAtIssue_cur (w : Work) : (workAtIssue w).cur = 0 := rfl
@[simp] theorem workAtIssue_out (w : Work) : (workAtIssue w).out = [] := rfl
@[simp] theorem workAtIssue_n (w : Work) : (workAtIssue w).n = w.n := rfl
@[simp] theorem workAtIssue_k (w : Work) : (workAtIssue w).k = w.k := rfl
@[simp] theorem workAtIssue_i (w : Work) : (workAtIssue w).i = w.i := rfl
@[simp] theorem workAtIssue_recs (w : Work) : (workAtIssue w).recs = [] := rfl

@[simp] theorem commandWork_cur (i : Instr) (w : Work) : (commandWork i w).cur = 0 := by cases i <;> rfl
@[simp] theorem commandWork_out (i : Instr) (w : Work) : (commandWork i w).out = [] := by cases i <;> rfl
@[simp] theorem commandWork_recs (i : Instr) (w : Work) : (commandWork i w).recs = [] := by cases i <;> rfl

/-- What an issued word that selects a command leaves in the working variables. -/
theorem initialWork_ok {cmd : Byte} {s : State} {i : Instr} (h : decode cmd s.opnds = .ok i) :
    initialWork cmd s = commandWork i (Config.freeWork s.freeCount) := by
  simp [initialWork, fetch, h]

/-- What a rejected word leaves in the working variables. -/
theorem initialWork_error {cmd : Byte} {s : State} {why : DecodeReject} (h : decode cmd s.opnds = .error why) :
    initialWork cmd s = workAtIssue (Config.freeWork s.freeCount) := by
  simp [initialWork, fetch, h]

/-- What every issue leaves in the working variables, whatever the word. -/
theorem initialWork_fixed (cmd : Byte) (s : State) :
    (initialWork cmd s).cur = 0 ∧ (initialWork cmd s).out = [] ∧ (initialWork cmd s).recs = [] := by
  cases h : decode cmd s.opnds with
  | ok i => simp [initialWork_ok h]
  | error why => simp [initialWork_error h]

@[simp] theorem resetBlock_cfg (s : State) : (resetBlock s).cfg = s.cfg := rfl
@[simp] theorem resetBlock_status (s : State) : (resetBlock s).status = 0x00#8 := rfl
@[simp] theorem resetBlock_errIndex (s : State) : (resetBlock s).errIndex = none := rfl
@[simp] theorem resetBlock_errOffset (s : State) : (resetBlock s).errOffset = none := rfl
@[simp] theorem resetBlock_payload (s : State) : (resetBlock s).payload = none := rfl
@[simp] theorem resetBlock_inProgress (s : State) : (resetBlock s).inProgress = none := rfl
@[simp] theorem resetBlock_opnds (s : State) : (resetBlock s).opnds = s.opnds := rfl
@[simp] theorem resetBlock_host (s : State) : (resetBlock s).host = s.host := rfl
@[simp] theorem resetBlock_hostRead (s : State) : (resetBlock s).hostRead = s.hostRead := rfl
@[simp] theorem resetBlock_freeCount (s : State) : (resetBlock s).freeCount = s.freeCount := rfl

/-- An outcome without error is completed by `completeOk`. -/
@[simp] theorem complete_ok (v : Payload) (s : State) : complete (.ok v) s = completeOk v s := rfl

/-- An error is completed by `raiseError`. -/
@[simp] theorem complete_error (e : CmdError) (s : State) : complete (.error e) s = raiseError e s := rfl

@[simp] theorem complete_cfg (o : Except CmdError Payload) (s : State) : (complete o s).cfg = s.cfg := by
  cases o <;> rfl
@[simp] theorem complete_opnds (o : Except CmdError Payload) (s : State) : (complete o s).opnds = s.opnds := by
  cases o <;> rfl
@[simp] theorem complete_host (o : Except CmdError Payload) (s : State) : (complete o s).host = s.host := by
  cases o <;> rfl
@[simp] theorem complete_hostRead (o : Except CmdError Payload) (s : State) : (complete o s).hostRead = s.hostRead := by
  cases o <;> rfl
@[simp] theorem complete_freeCount (o : Except CmdError Payload) (s : State) : (complete o s).freeCount = s.freeCount := by
  cases o <;> rfl
@[simp] theorem complete_inProgress (o : Except CmdError Payload) (s : State) : (complete o s).inProgress = none := by
  cases o <;> rfl

/-- With no command in progress, the passing of time changes nothing. -/
theorem passTime_idle (s : State) (h : s.inProgress = none) : passTime s = s := by
  simp [passTime, h]

/-- With a command in progress, the passing of time changes the working variables and the counter. -/
theorem passTime_busy (s : State) (r : Running) (h : s.inProgress = some r) :
    passTime s = { s with inProgress := some ⟨r.cmd, Config.freeWork s.freeCount⟩, freeCount := s.freeCount + 1 } := by
  simp [passTime, h]

@[simp] theorem passTime_cfg (s : State) : (passTime s).cfg = s.cfg := by
  cases h : s.inProgress <;> simp [passTime, h]
@[simp] theorem passTime_status (s : State) : (passTime s).status = s.status := by
  cases h : s.inProgress <;> simp [passTime, h]
@[simp] theorem passTime_errIndex (s : State) : (passTime s).errIndex = s.errIndex := by
  cases h : s.inProgress <;> simp [passTime, h]
@[simp] theorem passTime_errOffset (s : State) : (passTime s).errOffset = s.errOffset := by
  cases h : s.inProgress <;> simp [passTime, h]
@[simp] theorem passTime_payload (s : State) : (passTime s).payload = s.payload := by
  cases h : s.inProgress <;> simp [passTime, h]
@[simp] theorem passTime_opnds (s : State) : (passTime s).opnds = s.opnds := by
  cases h : s.inProgress <;> simp [passTime, h]
@[simp] theorem passTime_host (s : State) : (passTime s).host = s.host := by
  cases h : s.inProgress <;> simp [passTime, h]
@[simp] theorem passTime_hostRead (s : State) : (passTime s).hostRead = s.hostRead := by
  cases h : s.inProgress <;> simp [passTime, h]

/-- The passing of time keeps the command in progress. -/
theorem passTime_cmd (s : State) : (passTime s).inProgress.map Running.cmd = s.inProgress.map Running.cmd := by
  cases h : s.inProgress <;> simp [passTime, h]

/-- The passing of time neither starts nor ends a command. -/
@[simp] theorem passTime_inProgress_isSome (s : State) :
    (passTime s).inProgress.isSome = s.inProgress.isSome := by
  cases h : s.inProgress <;> simp [passTime, h]

end Sys2Proof.Laws
end

