-- ==== Sys2Proof/Laws/Ops.lean ====
section
/-! SUPPORT. What each shared operation, the dispatch and the step can do, said once: later proofs cite these lemmas
and do not unfold the operations. -/
namespace Sys2Proof.Laws
open Sys2Proof.Machine

/-- Completion without error, in the terms of the claims. -/
theorem completesOk_completeOk (v : Payload) (s : State) : CompletesOk s (completeOk v s) v :=
  ⟨by simp only [completeOk_status]; decide, rfl, rfl, rfl, rfl, ⟨rfl, rfl, rfl, rfl, rfl⟩⟩

/-- Completion with an error, in the terms of the claims. -/
theorem completesErr_raiseError (e : CmdError) (s : State) :
    CompletesErr s (raiseError e s) (statusErr e.reason) e.index e.offset :=
  ⟨rfl, rfl, rfl, rfl, rfl, ⟨rfl, rfl, rfl, rfl, rfl⟩⟩

/-- A command that needs an admitted input, when it is admitted. -/
theorem withInput_admitted {input : Bytes} {o : Except CmdError Payload} {s : State}
    (h : s.cfg.admitsLen input.length = true) : withInput input o s = .next (complete o s) := by
  simp [withInput, h]

/-- A command that needs an admitted input, when it is not. -/
theorem withInput_refused {input : Bytes} {o : Except CmdError Payload} {s : State}
    (h : s.cfg.admitsLen input.length = false) : withInput input o s = .refused .inputTooLong := by
  simp [withInput, h]

/-- What every command does (R32): an admitted command completes with its outcome, another is refused. -/
theorem exec_eq_perform (i : Instr) (s : State) :
    exec i s = if i.wellFormed s.cfg = true then .next (complete (perform s.cfg i) s)
      else .refused .inputTooLong := by
  cases i <;> rfl

/-- A command that answers a next state was admitted and completed. -/
theorem exec_next {i : Instr} {s t : State} (h : exec i s = .next t) :
    i.wellFormed s.cfg = true ∧ t = complete (perform s.cfg i) s := by
  rw [exec_eq_perform] at h
  split at h
  · rename_i hw
    exact ⟨hw, by injection h with h; exact h.symm⟩
  · cases h

/-- An admitted command completes. -/
theorem exec_of_wellFormed {i : Instr} {s : State} (h : i.wellFormed s.cfg = true) :
    exec i s = .next (complete (perform s.cfg i) s) := by
  rw [exec_eq_perform, if_pos h]

/-- An issue to an idle block starts the command or is refused. -/
theorem issue_cases (cmd : Byte) (s : State) :
    (admits cmd s = true ∧ issue cmd s = .next (startCommand cmd s)) ∨
    (admits cmd s = false ∧ issue cmd s = .refused .inputTooLong) := by
  cases h : admits cmd s <;> simp [issue, h]

/-- A host read returns the held value and lets time pass, or is refused. -/
theorem readReg_cases (reg : ResponseReg) (s : State) :
    (readable reg s = true ∧ ∃ v, readReg reg s = .next (passTime { s with hostRead := some v }) ∧
      (reg = .status → v = .status s.status) ∧
      (reg = .errIndex → ∃ x, s.errIndex = some x ∧ v = .errIndex x) ∧
      (reg = .errOffset → ∃ x, s.errOffset = some x ∧ v = .errOffset x) ∧
      (reg = .payload → ∃ x, s.payload = some x ∧ v = .payload x)) ∨
    (readable reg s = false ∧ readReg reg s = .refused (.readNoValue reg)) := by
  cases reg with
  | status => exact .inl ⟨rfl, _, rfl, by simp⟩
  | errIndex =>
    cases hr : responseReady s <;> cases hv : s.errIndex <;> simp [readable, readReg, readReturns, hr, hv]
  | errOffset =>
    cases hr : responseReady s <;> cases hv : s.errOffset <;> simp [readable, readReg, readReturns, hr, hv]
  | payload =>
    cases hr : responseReady s <;> cases hv : s.payload <;> simp [readable, readReg, readReturns, hr, hv]

/-- A host write is refused when it goes to an operand of the command in progress, and taken otherwise. -/
theorem writeBuffer_cases (w : OperandWrite) (s : State) :
    (inUse w.target s = false ∧ writeBuffer w s = .next (passTime { s with opnds := w.apply s.opnds })) ∨
    (inUse w.target s = true ∧ writeBuffer w s = .refused .operandsWritten) := by
  cases h : inUse w.target s <;> simp [writeBuffer, h]

/-- Why a word selects no command does not depend on the buffers (R61, "reads no operand"). -/
theorem decode_error_any {cmd : Byte} {o : OperandRecord} {why : DecodeReject} (h : decode cmd o = .error why)
    (o' : OperandRecord) : decode cmd o' = .error why := by
  unfold decode at h ⊢
  split at h
  · rename_i hr
    rw [if_pos hr]; exact h
  · rename_i hr
    rw [if_neg hr]
    unfold decodeOp at h ⊢
    split at h
    · rename_i hn
      split at hn <;> first | exact h | cases hn
    · cases h

/-- A buffer is in use exactly when the command in progress has it as an operand. -/
theorem inUse_iff {buf : OperandName} {s : State} :
    inUse buf s = true ↔
      ∃ r i, s.inProgress = some r ∧ decode r.cmd s.opnds = .ok i ∧ buf ∈ operandNames i := by
  unfold inUse fetch
  cases s.inProgress with
  | none => simp
  | some r => cases hd : decode r.cmd s.opnds <;> simp [hd]

/-- A write to a buffer that is no operand of a command leaves the command as it is. -/
theorem decodeOp_apply {op : BitVec 4} {o : OperandRecord} {i : Instr} {w : OperandWrite}
    (h : decodeOp op o = some i) (hw : w.target ∉ operandNames i) : decodeOp op (w.apply o) = some i := by
  unfold decodeOp at h ⊢
  split at h <;> cases h <;>
    cases w <;> first
      | rfl
      | (exfalso; revert hw; simp [operandNames, operandWrites, OperandWrite.target])

/-- A write that is taken leaves the word in progress the command it was. -/
theorem decode_of_free {w : OperandWrite} {s : State} (h : inUse w.target s = false) {r : Running}
    (hr : s.inProgress = some r) : decode r.cmd (w.apply s.opnds) = decode r.cmd s.opnds := by
  cases hd : decode r.cmd s.opnds with
  | error why => exact decode_error_any hd _
  | ok i =>
    have hw : w.target ∉ operandNames i := by
      intro hm
      have hu := inUse_iff.mpr ⟨r, i, hr, hd, hm⟩
      rw [h] at hu; cases hu
    unfold decode at hd ⊢
    split at hd
    · cases hd
    · rename_i hv
      rw [if_neg hv]
      split at hd
      · cases hd
      · rename_i j hj
        cases hd
        rw [decodeOp_apply hj hw]

/-- What the step that lets the block go on can do. -/
theorem finishCommand_cases (s : State) :
    (s.inProgress = none ∧ finishCommand s = .next s) ∨
    (∃ r i, s.inProgress = some r ∧ decode r.cmd s.opnds = .ok i ∧ finishCommand s = exec i s) ∨
    (∃ r why, s.inProgress = some r ∧ decode r.cmd s.opnds = .error why ∧
      finishCommand s = .next (rejectCommand why s)) := by
  cases h : s.inProgress with
  | none => exact .inl ⟨rfl, by simp [finishCommand, h]⟩
  | some r =>
    cases hd : decode r.cmd s.opnds with
    | ok i => exact .inr (.inl ⟨r, i, rfl, hd, by simp [finishCommand, h, fetch, hd]⟩)
    | error why => exact .inr (.inr ⟨r, why, rfl, hd, by simp [finishCommand, h, fetch, hd]⟩)

/-- The step that lets the block go on, when it answers a next state: the block was idle, or the command in progress
completed with an outcome. -/
theorem finishCommand_next {s t : State} (h : finishCommand s = .next t) :
    (s.inProgress = none ∧ t = s) ∨
    (∃ r, s.inProgress = some r ∧ ∃ o, t = complete o s ∧
      ((∃ i, decode r.cmd s.opnds = .ok i ∧ i.wellFormed s.cfg = true ∧ o = perform s.cfg i) ∨
       (∃ why, decode r.cmd s.opnds = .error why ∧ o = .error ⟨rejectReason why, noIndex, noOffset⟩))) := by
  rcases finishCommand_cases s with ⟨h0, h1⟩ | ⟨r, i, h0, hd, h1⟩ | ⟨r, why, h0, hd, h1⟩
  · rw [h1] at h; injection h with h; exact .inl ⟨h0, h.symm⟩
  · rw [h1] at h
    obtain ⟨hw, ht⟩ := exec_next h
    exact .inr ⟨r, h0, _, ht, .inl ⟨i, hd, hw, rfl⟩⟩
  · rw [h1] at h; injection h with h
    exact .inr ⟨r, h0, .error ⟨rejectReason why, noIndex, noOffset⟩, h.symm, .inr ⟨why, hd, rfl⟩⟩

/-- Everything a step can do when it answers a next state. -/
theorem step_next {s t : State} (h : step s = .next t) :
    ((s.host = [] ∨ ∃ cmd rest, s.host = .issue cmd :: rest ∧ statusBusy s.status = true) ∧
      finishCommand s = .next t) ∨
    (∃ rest, s.host = .wait :: rest ∧ finishCommand { s with host := rest } = .next t) ∨
    (∃ cmd rest, s.host = .issue cmd :: rest ∧ statusBusy s.status = false ∧ admits cmd s = true ∧
      t = startCommand cmd { s with host := rest }) ∨
    (∃ w rest, s.host = .write w :: rest ∧ inUse w.target s = false ∧
      t = passTime { s with host := rest, opnds := w.apply s.opnds }) ∨
    (∃ reg rest v, s.host = .read reg :: rest ∧ readable reg s = true ∧
      t = passTime { s with host := rest, hostRead := some v }) ∨
    (∃ rest, s.host = .reset :: rest ∧ t = resetBlock { s with host := rest }) := by
  unfold step at h
  split at h
  · exact .inl ⟨.inl ‹_›, h⟩
  · exact .inr (.inl ⟨_, ‹_›, h⟩)
  · rename_i cmd rest hh
    cases hb : statusBusy s.status with
    | true => rw [hb] at h; exact .inl ⟨.inr ⟨cmd, rest, hh, rfl⟩, by simpa using h⟩
    | false =>
      simp only [hb] at h
      rcases issue_cases cmd { s with host := rest } with ⟨ha, hi⟩ | ⟨ha, hi⟩
      · simp only [hi] at h
        injection h with h
        exact .inr (.inr (.inl ⟨cmd, rest, hh, rfl, ha, h.symm⟩))
      · simp [hi] at h
  · rename_i w rest hh
    rcases writeBuffer_cases w { s with host := rest } with ⟨h0, hp⟩ | ⟨h0, hp⟩
    · rw [hp] at h; injection h with h
      exact .inr (.inr (.inr (.inl ⟨w, rest, hh, h0, h.symm⟩)))
    · rw [hp] at h; cases h
  · rename_i reg rest hh
    rcases readReg_cases reg { s with host := rest } with ⟨h0, v, hv, _⟩ | ⟨h0, hv⟩
    · rw [hv] at h; injection h with h
      exact .inr (.inr (.inr (.inr (.inl ⟨reg, rest, v, hh, h0, h.symm⟩))))
    · rw [hv] at h; cases h
  · rename_i rest hh
    injection h with h
    exact .inr (.inr (.inr (.inr (.inr ⟨rest, hh, h.symm⟩))))

end Sys2Proof.Laws
end

