-- ==== Sys2Proof/Laws/PerInstr.lean ====
section
/-! SUPPORT. The command word of each command: one lemma per constructor of `Instr` (30_encoding.md R60 to R63). -/
namespace Sys2Proof.Laws

/-- A command's own word decodes to the command when its operands are in the buffers, whatever else is there; the word
has its reserved bits 0 (R61). -/
def CommandWord.Statement (i : Instr) : Prop :=
  cmdRsv (encodeWord i) = 0#4 ∧ ∀ o, decode (encodeWord i) (placeOperands i o) = .ok i

theorem decode_qenc (o : OperandRecord) : decode 0x01#8 o = .ok (.qenc o.r o.g o.b o.a) := rfl
theorem decode_qdec (o : OperandRecord) : decode 0x02#8 o = .ok (.qdec o.code) := rfl
theorem decode_tag (o : OperandRecord) : decode 0x03#8 o = .ok (.tag o.name) := rfl
theorem decode_hpack (o : OperandRecord) : decode 0x04#8 o = .ok (.hpack o.count) := rfl
theorem decode_dpack (o : OperandRecord) :
    decode 0x05#8 o = .ok (.dpack o.width o.height o.nPixels o.nameTag) := rfl
theorem decode_ppack (o : OperandRecord) : decode 0x06#8 o = .ok (.ppack o.pixels) := rfl
theorem decode_build (o : OperandRecord) : decode 0x07#8 o = .ok (.build o.images) := rfl
theorem decode_hunpack (o : OperandRecord) : decode 0x08#8 o = .ok (.hunpack o.input) := rfl
theorem decode_dunpack (o : OperandRecord) : decode 0x09#8 o = .ok (.dunpack o.input o.off) := rfl
theorem decode_untag (o : OperandRecord) : decode 0x0A#8 o = .ok (.untag o.nameTag) := rfl
theorem decode_punpack (o : OperandRecord) : decode 0x0B#8 o = .ok (.punpack o.input o.off o.n) := rfl
theorem decode_parse (o : OperandRecord) : decode 0x0C#8 o = .ok (.parse o.input) := rfl

theorem CommandWord.qenc (r g b a : Byte) : CommandWord.Statement (.qenc r g b a) :=
  ⟨show cmdRsv 0x01#8 = 0#4 by decide, fun _ => decode_qenc _⟩
theorem CommandWord.qdec (code : Code) : CommandWord.Statement (.qdec code) :=
  ⟨show cmdRsv 0x02#8 = 0#4 by decide, fun _ => decode_qdec _⟩
theorem CommandWord.tag (name : List Char) : CommandWord.Statement (.tag name) :=
  ⟨show cmdRsv 0x03#8 = 0#4 by decide, fun _ => decode_tag _⟩
theorem CommandWord.hpack (count : Nat) : CommandWord.Statement (.hpack count) :=
  ⟨show cmdRsv 0x04#8 = 0#4 by decide, fun _ => decode_hpack _⟩
theorem CommandWord.dpack (width height : U32) (nPixels : Nat) (nameTag : Tag) :
    CommandWord.Statement (.dpack width height nPixels nameTag) :=
  ⟨show cmdRsv 0x05#8 = 0#4 by decide, fun _ => decode_dpack _⟩
theorem CommandWord.ppack (pixels : List Pixel) : CommandWord.Statement (.ppack pixels) :=
  ⟨show cmdRsv 0x06#8 = 0#4 by decide, fun _ => decode_ppack _⟩
theorem CommandWord.build (images : List Image) : CommandWord.Statement (.build images) :=
  ⟨show cmdRsv 0x07#8 = 0#4 by decide, fun _ => decode_build _⟩
theorem CommandWord.hunpack (input : Bytes) : CommandWord.Statement (.hunpack input) :=
  ⟨show cmdRsv 0x08#8 = 0#4 by decide, fun _ => decode_hunpack _⟩
theorem CommandWord.dunpack (input : Bytes) (off : Nat) : CommandWord.Statement (.dunpack input off) :=
  ⟨show cmdRsv 0x09#8 = 0#4 by decide, fun _ => decode_dunpack _⟩
theorem CommandWord.untag (nameTag : Tag) : CommandWord.Statement (.untag nameTag) :=
  ⟨show cmdRsv 0x0A#8 = 0#4 by decide, fun _ => decode_untag _⟩
theorem CommandWord.punpack (input : Bytes) (off n : Nat) : CommandWord.Statement (.punpack input off n) :=
  ⟨show cmdRsv 0x0B#8 = 0#4 by decide, fun _ => decode_punpack _⟩
theorem CommandWord.parse (input : Bytes) : CommandWord.Statement (.parse input) :=
  ⟨show cmdRsv 0x0C#8 = 0#4 by decide, fun _ => decode_parse _⟩

end Sys2Proof.Laws
end

