-- ==== Sys2Proof/Tests/Slice0.lean ====
section
/-! SUPPORT. Tests on fixed values, each for one step. The expected values are those of spec/95_test_vectors.md, or are
written out from the rule named. Names that begin witness_ show that the hypotheses of a statement of
Certificates/Slice0/Obligations.lean are met, clause by clause. -/
namespace Sys2Proof.Tests
open Sys2Proof.Machine

/-- A magic for the tests. "No vector depends on its value" (95_test_vectors.md). -/
def magicA : Tag := ⟨0x01#8, 0x02#8, 0x03#8, 0x04#8⟩

/-- The default configuration of R6, with that magic. -/
def cfgA : Config := ⟨magicA, .max512, .reject, none⟩
def cfg511 : Config := { cfgA with decodeMax := .max511 }
def cfgIgnore : Config := { cfgA with dimCheck := .ignore }
def cfgShort : Config := { cfgA with maxInLen := some 3 }

/-- An idle block after reset, with a configuration and a host. -/
def idle (cfg : Config) (host : List HostAction) : State := { State.reset with cfg := cfg, host := host }

/-- Working variables for the tests. -/
def work0 : Work := ⟨0, [], 0, 0, 0, []⟩

/-- A block with a command in progress, issued after reset. -/
def busy (cmd : Byte) (o : OperandRecord) (host : List HostAction) : State :=
  { idle cfgA host with status := 0x08#8, opnds := o, inProgress := some ⟨cmd, work0⟩ }

/-- A block after `QENC 0, 0, 0, 255`. -/
def done (host : List HostAction) : State := { idle cfgA host with status := 0x04#8, payload := some (.code 1#16) }

/-- A block after `QDEC 513`. -/
def failed (host : List HostAction) : State :=
  { idle cfgA host with
    status := 0x56#8, errIndex := some 0xFFFF#16, errOffset := some 0xFFFFFFFFFFFFFFFF#64 }

/-- What a step or a command answered: the response of a next state, or a refusal. -/
inductive Answer where
  | response (status : Byte) (errIndex : Option (BitVec 16)) (errOffset : Option (BitVec 64)) (payload : Option Payload)
  | refused (why : Refusal)
  | fault
deriving DecidableEq, Repr

/-- The answer a result holds. -/
def response (r : Result) : Answer :=
  match r with
  | .next t => .response t.status t.errIndex t.errOffset t.payload
  | .fault _ => .fault
  | .refused why => .refused why

/-- The response of an OK command (R66). -/
def ok (v : Payload) : Answer := .response 0x04#8 none none (some v)

/-- The response of a failed command. -/
def err (st : Byte) (idx : BitVec 16) (off : BitVec 64) : Answer := .response st (some idx) (some off) none

/-- "none" in `ERR_OFFSET` (R134). -/
def noOff : BitVec 64 := 0xFFFFFFFFFFFFFFFF#64

/-- The 25-byte container T1 of 95_test_vectors.md, with its count byte and its first code's bytes as arguments. -/
def stream (count c0 c1 : Byte) : Bytes :=
  [0x01#8, 0x02#8, 0x03#8, 0x04#8, count] ++ [0x02#8, 0x00#8, 0x00#8, 0x00#8, 0x72#8, 0x65#8, 0x64#8, 0x20#8] ++
    [0x02#8, 0x00#8, 0x00#8, 0x00#8, 0x01#8, 0x00#8, 0x00#8, 0x00#8] ++ [c0, c1, 0x00#8, 0x00#8]

/-- T1. -/
def t1 : Bytes := stream 0x01#8 0xC1#8 0x01#8

/-- `BAD` of P4. -/
def bad : Bytes := stream 0x01#8 0x01#8 0x02#8

/-- T1's image. -/
def red : Image := ⟨['r', 'e', 'd'], 2#32, 1#32, [⟨255#8, 0#8, 0#8, 255#8⟩, ⟨0#8, 0#8, 0#8, 0#8⟩]⟩

/-- A record whose every buffer holds something of its own. -/
def sample : OperandRecord where
  r := 1#8
  g := 2#8
  b := 3#8
  a := 4#8
  code := 5#16
  name := ['a', 'b']
  count := 6
  width := 7#32
  height := 8#32
  nPixels := 9
  nameTag := ⟨0x61#8, 0x62#8, 0x63#8, 0x64#8⟩
  pixels := [⟨10#8, 11#8, 12#8, 13#8⟩]
  images := [red]
  input := [0x0E#8, 0x0F#8]
  off := 16
  n := 17

/-! ### Well-formedness (R41): the one check a command can fail -/

theorem test_longer_input_is_ill_formed : (Instr.hunpack [0#8, 0#8, 0#8, 0#8]).wellFormed cfgShort = false := by decide
theorem test_longest_input_is_well_formed : (Instr.parse [0#8, 0#8, 0#8]).wellFormed cfgShort = true := by decide
theorem test_longer_input_has_no_step :
    response (step { idle cfgShort [.issue 0x0C#8] with
      opnds := { OperandRecord.zero with input := [0#8, 0#8, 0#8, 0#8] } }) = .refused .inputTooLong := by decide
theorem test_xxxx_is_no_magic : Config.wf { cfgA with magic := ⟨0x78#8, 0x78#8, 0x78#8, 0x78#8⟩ } = false := by decide

/-! ### Decoding: each word written out bit by bit from R60 and R62, `RSV` then `OP` -/

theorem test_decode_qenc : (decode 0b00000001#8 sample).toOption = some (.qenc 1#8 2#8 3#8 4#8) := by decide
theorem test_decode_qdec : (decode 0b00000010#8 sample).toOption = some (.qdec 5#16) := by decide
theorem test_decode_tag : (decode 0b00000011#8 sample).toOption = some (.tag ['a', 'b']) := by decide
theorem test_decode_hpack : (decode 0b00000100#8 sample).toOption = some (.hpack 6) := by decide
theorem test_decode_dpack : (decode 0b00000101#8 sample).toOption =
    some (.dpack 7#32 8#32 9 ⟨0x61#8, 0x62#8, 0x63#8, 0x64#8⟩) := by decide
theorem test_decode_ppack : (decode 0b00000110#8 sample).toOption =
    some (.ppack [⟨10#8, 11#8, 12#8, 13#8⟩]) := by decide
theorem test_decode_build : (decode 0b00000111#8 sample).toOption = some (.build [red]) := by decide
theorem test_decode_hunpack : (decode 0b00001000#8 sample).toOption = some (.hunpack [0x0E#8, 0x0F#8]) := by decide
theorem test_decode_dunpack : (decode 0b00001001#8 sample).toOption =
    some (.dunpack [0x0E#8, 0x0F#8] 16) := by decide
theorem test_decode_untag : (decode 0b00001010#8 sample).toOption =
    some (.untag ⟨0x61#8, 0x62#8, 0x63#8, 0x64#8⟩) := by decide
theorem test_decode_punpack : (decode 0b00001011#8 sample).toOption =
    some (.punpack [0x0E#8, 0x0F#8] 16 17) := by decide
theorem test_decode_parse : (decode 0b00001100#8 sample).toOption = some (.parse [0x0E#8, 0x0F#8]) := by decide

/-- Table 2.13: 0x00, 0x0D and 0x0F are RESERVED_OP; 0x11, 0xF0 and 0x81 are RESERVED_BITS. -/
theorem test_rejected_words :
    response (step (busy 0x00#8 sample [])) = err 0x17#8 0xFFFF#16 noOff ∧
    response (step (busy 0x0D#8 sample [])) = err 0x17#8 0xFFFF#16 noOff ∧
    response (step (busy 0x0F#8 sample [])) = err 0x17#8 0xFFFF#16 noOff ∧
    response (step (busy 0x11#8 sample [])) = err 0x27#8 0xFFFF#16 noOff ∧
    response (step (busy 0xF0#8 sample [])) = err 0x27#8 0xFFFF#16 noOff ∧
    response (step (busy 0x81#8 sample [])) = err 0x27#8 0xFFFF#16 noOff := by decide

/-! ### Encoding: R62's bytes, and the operands in the record -/

theorem test_encode : encodeWord (.qenc 1#8 2#8 3#8 4#8) = 0x01#8 ∧ encodeWord (.qdec 5#16) = 0x02#8 ∧
    encodeWord (.tag []) = 0x03#8 ∧ encodeWord (.hpack 6) = 0x04#8 ∧ encodeWord (.dpack 7#32 8#32 9 magicA) = 0x05#8 ∧
    encodeWord (.ppack []) = 0x06#8 ∧ encodeWord (.build []) = 0x07#8 ∧ encodeWord (.hunpack []) = 0x08#8 ∧
    encodeWord (.dunpack [] 16) = 0x09#8 ∧ encodeWord (.untag magicA) = 0x0A#8 ∧
    encodeWord (.punpack [] 16 17) = 0x0B#8 ∧ encodeWord (.parse []) = 0x0C#8 := by decide
theorem test_encode_operands : (encode (.dunpack [0x0E#8] 16)).2.input = [0x0E#8] ∧
    (encode (.dunpack [0x0E#8] 16)).2.off = 16 := by decide
theorem test_table_word_reads_zero_operands : decodeTableWord 8 0x0B = some (.punpack [] 0 0) ∧
    decodeTableWord 8 0x0D = none ∧ decodeTableWord 16 0x01 = none := by decide

/-! ### The commands (tables 2.1 to 2.12) -/

theorem test_qenc : response (exec (.qenc 100#8 150#8 200#8 128#8) (idle cfgA [])) = ok (.code 231#16) := by decide
theorem test_qenc_transparent : response (exec (.qenc 255#8 255#8 255#8 0#8) (idle cfgA [])) = ok (.code 0#16) := by
  decide
theorem test_qdec : response (exec (.qdec 279#16) (idle cfgA [])) = ok (.color ⟨128#8, 64#8, 192#8, 255#8⟩) := by
  decide
theorem test_qdec_limit : response (exec (.qdec 512#16) (idle cfgA [])) = ok (.color ⟨224#8, 224#8, 224#8, 255#8⟩) ∧
    response (exec (.qdec 513#16) (idle cfgA [])) = err 0x56#8 0xFFFF#16 noOff ∧
    response (exec (.qdec 512#16) (idle cfg511 [])) = err 0x56#8 0xFFFF#16 noOff := by decide
theorem test_tag : response (exec (.tag ['a', 'b']) (idle cfgA [])) =
    ok (.nameTag ⟨0x61#8, 0x62#8, 0x20#8, 0x20#8⟩) := by decide
theorem test_tag_non_ascii : response (exec (.tag ['h', 'é']) (idle cfgA [])) = err 0x35#8 0xFFFF#16 noOff ∧
    response (exec (.tag ['a', 'b', 'c', 'd', 'é']) (idle cfgA [])) =
      ok (.nameTag ⟨0x61#8, 0x62#8, 0x63#8, 0x64#8⟩) := by decide
theorem test_hpack : response (exec (.hpack 255) (idle cfgA [])) =
    ok (.hdr [0x01#8, 0x02#8, 0x03#8, 0x04#8, 0xFF#8]) := by decide
theorem test_hpack_too_many : response (exec (.hpack 256) (idle cfgA [])) = err 0x15#8 0xFFFF#16 noOff := by decide
theorem test_dpack_little_endian :
    response (exec (.dpack 0x01020304#32 1#32 0x01020304 ⟨0x61#8, 0x62#8, 0x63#8, 0x64#8⟩) (idle cfgA [])) =
      ok (.desc [0x04#8, 0x03#8, 0x02#8, 0x01#8, 0x61#8, 0x62#8, 0x63#8, 0x64#8, 0x04#8, 0x03#8, 0x02#8, 0x01#8,
        0x01#8, 0x00#8, 0x00#8, 0x00#8]) := by decide
theorem test_dpack_overflow_first : response (exec (.dpack 65536#32 65536#32 4294967296 magicA) (idle cfgA [])) =
    err 0x45#8 0xFFFF#16 noOff := by decide
theorem test_ppack : response (exec (.ppack red.pixels) (idle cfgA [])) =
    ok (.blk [0xC1#8, 0x01#8, 0x00#8, 0x00#8]) := by decide
theorem test_ppack_largest_code : response (exec (.ppack [⟨255#8, 255#8, 255#8, 255#8⟩]) (idle cfgA [])) =
    ok (.blk [0x00#8, 0x02#8]) := by decide
theorem test_build : response (exec (.build [red]) (idle cfgA [])) = ok (.rom t1) := by decide
theorem test_build_first_error : response (exec (.build [⟨['o', 'k'], 1#32, 1#32, [⟨0#8, 0#8, 0#8, 0#8⟩]⟩,
    ⟨['h', 'é'], 1#32, 1#32, [⟨0#8, 0#8, 0#8, 0#8⟩]⟩]) (idle cfgA [])) = err 0x35#8 1#16 noOff := by decide
theorem test_hunpack : response (exec (.hunpack t1) (idle cfgA [])) = ok (.header 1#8 5) := by decide
theorem test_hunpack_errors :
    response (exec (.hunpack [0x78#8, 0x78#8, 0x78#8, 0x78#8, 0x01#8]) (idle cfgA [])) = err 0x16#8 0xFFFF#16 0#64 ∧
    response (exec (.hunpack [0x01#8, 0x02#8, 0x03#8]) (idle cfgA [])) = err 0x16#8 0xFFFF#16 0#64 ∧
    response (exec (.hunpack [0x01#8, 0x02#8, 0x03#8, 0x04#8]) (idle cfgA [])) = err 0x46#8 0xFFFF#16 4#64 := by decide
theorem test_dunpack : response (exec (.dunpack t1 5) (idle cfgA [])) =
    ok (.descriptor 2#32 ⟨0x72#8, 0x65#8, 0x64#8, 0x20#8⟩ 2#32 1#32 21) := by decide
theorem test_dunpack_off_boundary : response (exec (.dunpack t1 9) (idle cfgA [])) = err 0x66#8 0xFFFF#16 9#64 ∧
    response (exec (.dunpack t1 9) (idle cfgIgnore [])) =
      ok (.descriptor 0x20646572#32 ⟨0x02#8, 0x00#8, 0x00#8, 0x00#8⟩ 1#32 449#32 25) ∧
    response (exec (.dunpack t1 10) (idle cfgA [])) = err 0x26#8 0xFFFF#16 10#64 := by decide
theorem test_untag : response (exec (.untag ⟨0x20#8, 0x61#8, 0x20#8, 0x20#8⟩) (idle cfgA [])) =
    ok (.name [0x20#8, 0x61#8]) := by decide
theorem test_untag_keeps_nul : response (exec (.untag ⟨0x61#8, 0x00#8, 0x20#8, 0x20#8⟩) (idle cfgA [])) =
    ok (.name [0x61#8, 0x00#8]) := by decide
theorem test_punpack : response (exec (.punpack [0xC1#8, 0x01#8, 0x00#8, 0x00#8] 0 2) (idle cfgA [])) =
    ok (.pixels [⟨224#8, 0#8, 0#8, 255#8⟩, ⟨0#8, 0#8, 0#8, 0#8⟩] 4) := by decide
theorem test_punpack_errors :
    response (exec (.punpack [0x00#8, 0x00#8, 0x01#8, 0x02#8] 0 2) (idle cfgA [])) = err 0x56#8 0xFFFF#16 2#64 ∧
    response (exec (.punpack [0x01#8, 0x02#8, 0x00#8, 0x00#8] 0 3) (idle cfgA [])) = err 0x36#8 0xFFFF#16 0#64 ∧
    response (exec (.punpack [0xC1#8, 0x01#8, 0x00#8, 0x00#8] 5 0) (idle cfgA [])) = err 0x36#8 0xFFFF#16 5#64 := by
  decide
theorem test_parse : response (exec (.parse (t1 ++ [0xAA#8])) (idle cfgA [])) =
    ok (.records [⟨⟨0x72#8, 0x65#8, 0x64#8, 0x20#8⟩, [0x72#8, 0x65#8, 0x64#8], 2#32, 1#32,
      [⟨224#8, 0#8, 0#8, 255#8⟩, ⟨0#8, 0#8, 0#8, 0#8⟩]⟩]) := by decide
theorem test_parse_errors : response (exec (.parse bad) (idle cfgA [])) = err 0x56#8 0#16 21#64 ∧
    response (exec (.parse (stream 0x02#8 0xC1#8 0x01#8)) (idle cfgA [])) = err 0x26#8 1#16 25#64 ∧
    response (exec (.parse (t1.take 24)) (idle cfgA [])) = err 0x36#8 0#16 21#64 := by decide

/-! ### The transaction and the host -/

theorem test_issue_after_reset : response (step (idle cfgA [.issue 0x01#8])) =
    .response 0x08#8 none none none := by decide
theorem test_issue_after_ok : response (step (done [.issue 0x0D#8])) =
    .response 0x0C#8 none none none := by decide
theorem test_busy_issue_waits : response (step (busy 0x01#8 sample [.issue 0x02#8])) = ok (.code 1#16) := by decide
theorem test_stale_read_is_refused : response (step (busy 0x01#8 sample [.read .payload])) =
    .refused (.readNoValue .payload) := by decide
theorem test_no_offset_after_ok : response (step (done [.read .errOffset])) =
    .refused (.readNoValue .errOffset) := by decide
/-- R156: QDEC's operand may not be written, with 6 or with the 5 it already holds. -/
theorem test_operand_write_is_refused :
    response (step (busy 0x02#8 sample [.write (.code 6#16)])) = .refused .operandsWritten ∧
    response (step (busy 0x02#8 sample [.write (.code 5#16)])) = .refused .operandsWritten := by decide
theorem test_other_buffer_is_taken :
    step (busy 0x02#8 sample [.write (.off 3)]) =
      .next (passTime (busy 0x02#8 { sample with off := 3 } [])) := by rfl
theorem test_reset_abandons_the_command :
    step (busy 0x01#8 sample [.reset]) = .next { idle cfgA [] with opnds := sample } := by rfl

/-! ### Witnesses: reset, the invariant, the step -/

theorem inv_busy (host : List HostAction) : (busy 0x01#8 sample host).Inv where
  cfgOk := rfl
  busyIff := by show statusBusy 0x08#8 = true; decide
  statusOk := by show statusLegal 0x08#8 = true; decide
  payloadIff := by show false = (statusDone 0x08#8 && !statusBusy 0x08#8 && decide (statusKind 0x08#8 = 0#2)); decide
  errIndexIff := by show false = (statusDone 0x08#8 && !statusBusy 0x08#8 && decide (statusKind 0x08#8 ≠ 0#2)); decide
  errOffsetIff := by show false = (statusDone 0x08#8 && !statusBusy 0x08#8 && decide (statusKind 0x08#8 ≠ 0#2)); decide
  payloadShaped := by intro v h; cases h
  admitted := by intro r h; cases h; rfl

theorem inv_done (host : List HostAction) : (done host).Inv where
  cfgOk := rfl
  busyIff := by show statusBusy 0x04#8 = false; decide
  statusOk := by show statusLegal 0x04#8 = true; decide
  payloadIff := by show true = (statusDone 0x04#8 && !statusBusy 0x04#8 && decide (statusKind 0x04#8 = 0#2)); decide
  errIndexIff := by show false = (statusDone 0x04#8 && !statusBusy 0x04#8 && decide (statusKind 0x04#8 ≠ 0#2)); decide
  errOffsetIff := by show false = (statusDone 0x04#8 && !statusBusy 0x04#8 && decide (statusKind 0x04#8 ≠ 0#2)); decide
  payloadShaped := by intro v h; cases h; rfl
  admitted := by intro r h; cases h

theorem inv_failed (host : List HostAction) : (failed host).Inv where
  cfgOk := rfl
  busyIff := by show statusBusy 0x56#8 = false; decide
  statusOk := by show statusLegal 0x56#8 = true; decide
  payloadIff := by show false = (statusDone 0x56#8 && !statusBusy 0x56#8 && decide (statusKind 0x56#8 = 0#2)); decide
  errIndexIff := by show true = (statusDone 0x56#8 && !statusBusy 0x56#8 && decide (statusKind 0x56#8 ≠ 0#2)); decide
  errOffsetIff := by show true = (statusDone 0x56#8 && !statusBusy 0x56#8 && decide (statusKind 0x56#8 ≠ 0#2)); decide
  payloadShaped := by intro v h; cases h
  admitted := by intro r h; cases h

theorem witness_reset : (busy 0x01#8 sample [.reset, .wait]).host = .reset :: [.wait] ∧
    ((done [.write (.n 3)]).inProgress = none ∧ (∀ cmd rest, (done [.write (.n 3)]).host ≠ .issue cmd :: rest) ∧
      (∀ rest, (done [.write (.n 3)]).host ≠ .reset :: rest) ∧ ∃ t, step (done [.write (.n 3)]) = .next t) :=
  ⟨rfl, rfl, (by intro _ _ h; cases h), (by intro _ h; cases h), _, rfl⟩

/-- A completion, an issue that ends a response, a read, a write, and a reset, each from a state that meets the
invariant. -/
theorem witness_invariant : (∃ t, (busy 0x01#8 sample []).Inv ∧ step (busy 0x01#8 sample []) = .next t) ∧
    (∃ t, (failed [.issue 0x0F#8]).Inv ∧ step (failed [.issue 0x0F#8]) = .next t) ∧
    (∃ t, (failed [.read .errOffset]).Inv ∧ step (failed [.read .errOffset]) = .next t) ∧
    (∃ t, (busy 0x01#8 sample [.write (.n 3)]).Inv ∧ step (busy 0x01#8 sample [.write (.n 3)]) = .next t) ∧
    ∃ t, (done [.reset]).Inv ∧ step (done [.reset]) = .next t :=
  ⟨⟨_, inv_busy _, rfl⟩, ⟨_, inv_failed _, rfl⟩, ⟨_, inv_failed _, rfl⟩, ⟨_, inv_busy _, rfl⟩, ⟨_, inv_done _, rfl⟩⟩

/-- Duties kept and duties broken, from states that meet the invariant. -/
theorem witness_duties : ((done [.read .payload]).Inv ∧ hostDuty (done [.read .payload]) = true) ∧
    ((done [.read .errIndex]).Inv ∧ hostDuty (done [.read .errIndex]) = false) ∧
    ((busy 0x01#8 sample [.write (.a 4#8)]).Inv ∧
      hostDuty (busy 0x01#8 sample [.write (.a 4#8)]) = false) :=
  ⟨⟨inv_done _, by decide⟩, ⟨inv_done _, by decide⟩, inv_busy _, by decide⟩

theorem witness_step : (busy 0x01#8 sample []).inProgress = some ⟨0x01#8, work0⟩ ∧
    decode 0x01#8 sample = .ok (.qenc 1#8 2#8 3#8 4#8) ∧ (busy 0x01#8 sample []).host = [] ∧
    (busy 0x01#8 sample [.wait]).host = .wait :: [] ∧
    (busy 0x01#8 sample [.issue 0x02#8]).host = .issue 0x02#8 :: [] ∧
    statusBusy (busy 0x01#8 sample [.issue 0x02#8]).status = true := ⟨rfl, rfl, rfl, rfl, rfl, by decide⟩

theorem witness_table_word : decodeTableWord 8 0x01 = some (.qenc 0#8 0#8 0#8 0#8) ∧
    decodeTableWord 8 0x0C = some (.parse []) := by decide

/-! ### Witnesses: the command word -/

theorem witness_rejected : ((0x10#8 : Byte).toNat / 16 ≠ 0 ∧ (0xFF#8 : Byte).toNat / 16 ≠ 0) ∧
    ((0x00#8 : Byte).toNat / 16 = 0 ∧ (0x00#8 : Byte).toNat % 16 ∈ [0x0, 0xD, 0xE, 0xF]) ∧
    ((0x0F#8 : Byte).toNat / 16 = 0 ∧ (0x0F#8 : Byte).toNat % 16 ∈ [0x0, 0xD, 0xE, 0xF]) ∧
    ((0x0C#8 : Byte).toNat / 16 = 0 ∧ (0x0C#8 : Byte).toNat % 16 ∉ [0x0, 0xD, 0xE, 0xF]) := by decide

theorem witness_rejected_states :
    ((busy 0x1F#8 sample []).inProgress = some ⟨0x1F#8, work0⟩ ∧ (busy 0x1F#8 sample []).host = [] ∧
      decode 0x1F#8 sample = .error .reservedBits) ∧
    ((busy 0x0D#8 sample []).inProgress = some ⟨0x0D#8, work0⟩ ∧ (busy 0x0D#8 sample []).host = [] ∧
      decode 0x0D#8 sample = .error .reservedOp) := ⟨⟨rfl, rfl, rfl⟩, rfl, rfl, rfl⟩

theorem witness_decoded : decode 0x0B#8 sample = .ok (.punpack [0x0E#8, 0x0F#8] 16 17) ∧
    decode 0x07#8 sample = .ok (.build [red]) := ⟨rfl, rfl⟩

/-- A line with `MAGIC` in its byte string, and one whose `IN` is a buffer defined before it. -/
theorem witness_assembled : assemble ⟨magicA, [], none⟩ .hunpack [.byteString [.magic, .hex 0x00#8]] =
      some [.write (.input [0x01#8, 0x02#8, 0x03#8, 0x04#8, 0x00#8]), .issue 0x08#8] ∧
    asmStream ⟨magicA, [(['R'], [0x07#8])], none⟩ (.buffer ['R']) = some [0x07#8] ∧
    asmStream ⟨magicA, [], none⟩ (.byteString [.magic]) = some [0x01#8, 0x02#8, 0x03#8, 0x04#8] := by decide

/-- R73's operand order, on a line whose operands all differ; 256 does not fit `r` (R63). -/
theorem test_assemble : assemble ⟨magicA, [], none⟩ .qenc [.number 100, .number 150, .number 200, .number 255] =
      some [.write (.r 100#8), .write (.g 150#8), .write (.b 200#8), .write (.a 255#8), .issue 0x01#8] ∧
    assemble ⟨magicA, [], none⟩ .qenc [.number 256, .number 0, .number 0, .number 0] = none := by decide

/-! ### Witnesses: STATUS and the transaction -/

theorem witness_status : (statusLegal (busy 0x01#8 sample []).status = true ∧
      ∃ t, step (busy 0x01#8 sample []) = .next t) ∧
    (statusLegal (failed [.issue 0x0C#8]).status = true ∧ ∃ t, step (failed [.issue 0x0C#8]) = .next t) ∧
    (busy 0x01#8 sample [.read .status]).inProgress.isSome = true ∧
    statusBusy (busy 0x01#8 sample [.read .status]).status = true ∧
    ∃ t, step (busy 0x01#8 sample [.read .status]) = .next t ∧ t.inProgress.isSome = true :=
  ⟨⟨by decide, _, rfl⟩, ⟨by decide, _, rfl⟩, rfl, by decide, _, rfl, rfl⟩

theorem witness_issue : (failed [.issue 0x0C#8]).host = .issue 0x0C#8 :: [] ∧
    statusBusy (failed [.issue 0x0C#8]).status = false ∧ admits 0x0C#8 (failed [.issue 0x0C#8]) = true := by decide

/-- Issues of BUILD, PARSE, PPACK and PUNPACK, by their words. -/
theorem witness_issue_commands : (∀ cmd ∈ [0x06#8, 0x07#8, 0x0B#8, 0x0C#8],
      statusBusy { failed [.issue cmd] with opnds := sample }.status = false ∧
        admits cmd { failed [.issue cmd] with opnds := sample } = true) ∧
    decode 0x07#8 sample = .ok (.build [red]) ∧ (∃ x, decode 0x0C#8 sample = .ok (.parse x)) ∧
    (∃ px, decode 0x06#8 sample = .ok (.ppack px)) ∧ ∃ x off n, decode 0x0B#8 sample = .ok (.punpack x off n) :=
  ⟨by decide, rfl, ⟨_, rfl⟩, ⟨_, rfl⟩, _, _, _, rfl⟩

/-- `N <- len(images)` (R99): 2 after the issue of BUILD with two images. -/
theorem test_issue_build : ∃ t w,
    step { idle cfgA [.issue 0x07#8] with opnds := { sample with images := [red, red] } } = .next t ∧
      t.inProgress = some ⟨0x07#8, w⟩ ∧ w.n = 2 := ⟨_, _, rfl, rfl, rfl⟩

theorem witness_busy_issue : (busy 0x01#8 sample [.issue 0x0C#8]).Inv ∧
    statusBusy (busy 0x01#8 sample [.issue 0x0C#8]).status = true ∧
    ∃ t, step (busy 0x01#8 sample [.issue 0x0C#8]) = .next t := ⟨inv_busy _, by decide, _, rfl⟩

/-- QENC in progress: `a` is an operand of it and `code` is none; a rejected word has no operand. -/
theorem witness_operand_write : decode 0x01#8 sample = .ok (.qenc 1#8 2#8 3#8 4#8) ∧
    OperandName.a ∈ operandNames (.qenc 1#8 2#8 3#8 4#8) ∧ OperandName.code ∉ operandNames (.qenc 1#8 2#8 3#8 4#8) ∧
    inUse .a (busy 0x0D#8 sample []) = false ∧ inUse .a (done []) = false := ⟨rfl, by decide⟩

theorem witness_reads : readable .status (busy 0x01#8 sample [.read .status]) = true ∧
    readable .payload (busy 0x01#8 sample [.read .payload]) = false ∧
    readable .payload (done [.read .payload]) = true ∧ readable .errIndex (done [.read .errIndex]) = false ∧
    readable .errIndex (failed [.read .errIndex]) = true ∧ readable .errOffset (failed [.read .errOffset]) = true ∧
    readable .payload (failed [.read .payload]) = false ∧ readable .payload (idle cfgA [.read .payload]) = false := by
  decide

theorem witness_in_progress : (busy 0x01#8 sample [.reset]).Inv ∧
    (busy 0x01#8 sample [.reset]).inProgress = some ⟨0x01#8, work0⟩ ∧
    ∃ t, step (busy 0x01#8 sample [.reset]) = .next t := ⟨inv_busy _, rfl, _, rfl⟩

theorem witness_buffers : (∃ t, step (busy 0x01#8 sample []) = .next t) ∧
    ∀ w rest, (busy 0x01#8 sample []).host ≠ .write w :: rest := ⟨⟨_, rfl⟩, (by intro _ _ h; cases h)⟩

theorem witness_idle : ((done []).inProgress = none ∧ (done []).host = []) ∧
    (done [.wait]).inProgress = none ∧ (done [.wait]).host = .wait :: [] := ⟨⟨rfl, rfl⟩, rfl, rfl⟩

/-- A step of a state with a command in progress that goes on, and one that is refused. -/
theorem witness_working_variables : (∃ t, step (busy 0x01#8 sample [.read .status]) = .next t) ∧
    step (busy 0x01#8 sample [.read .payload]) = .refused (.readNoValue .payload) := ⟨⟨_, rfl⟩, rfl⟩

theorem witness_frame : (∃ t, exec (.build [red]) (idle cfgA []) = .next t) ∧
    ∃ t, exec (.parse bad) (idle cfgA []) = .next t := ⟨⟨_, rfl⟩, _, rfl⟩

theorem witness_kinds :
    (∃ t, exec (.hpack 256) (idle cfgA []) = .next t ∧ statusKind t.status = 1#2) ∧
    ∃ t, exec (.qdec 513#16) (idle cfgA []) = .next t ∧ statusKind t.status = 2#2 :=
  ⟨⟨_, rfl, by decide⟩, _, rfl, by decide⟩

theorem witness_earlier : SameInputs (busy 0x01#8 sample []) { busy 0x01#8 sample [] with status := 0x5E#8 } ∧
    ∃ t, step (busy 0x01#8 sample []) = .next t := ⟨⟨rfl, rfl⟩, _, rfl⟩

/-! ### Witnesses: the quantizer and the encode path -/

theorem witness_qdec : (decodeLimit cfgA.decodeMax < (513#16 : Code).toNat ∧
      decodeLimit cfg511.decodeMax < (512#16 : Code).toNat) ∧
    ((512#16 : Code) ≠ 0#16 ∧ (512#16 : Code).toNat ≤ decodeLimit cfgA.decodeMax) ∧
    ((1#16 : Code) ≠ 0#16 ∧ (511#16 : Code).toNat ≤ decodeLimit cfg511.decodeMax) := by decide

theorem witness_pixels : (⟨255#8, 255#8, 255#8, 0#8⟩ : Pixel).a = 0#8 ∧
    ((⟨224#8, 224#8, 224#8, 1#8⟩ : Pixel).a ≠ 0#8 ∧ 224 ≤ (224#8 : Byte).toNat) ∧
    (⟨223#8, 255#8, 255#8, 255#8⟩ : Pixel).r.toNat < 224 := by decide

theorem witness_survives : qdec .max512 (qenc ⟨224#8, 32#8, 0#8, 255#8⟩) noIndex noOffset =
      .ok ⟨224#8, 32#8, 0#8, 255#8⟩ ∧
    qdec .max512 (qenc ⟨225#8, 32#8, 0#8, 254#8⟩) noIndex noOffset = .ok ⟨224#8, 32#8, 0#8, 255#8⟩ := ⟨rfl, rfl⟩

theorem witness_bucket_triples : (1 ≤ 1 ∧ 1 ≤ 512) ∧ (1 ≤ 512 ∧ 512 ≤ 512) ∧ opaqueCode 7 7 7 = 512 ∧
    opaqueCode 0 0 0 = 1 := by decide

/-- A name good in its first four characters, the last of them 0x7F, and one whose fourth character is 0x80. -/
theorem witness_tag : (['a', 'b', 'c', '\x7F', 'é'] : List Char).take 4 = ['a', 'b', 'c', '\x7F'] ∧
    'c'.toNat ≤ 0x7F ∧ '\x7F'.toNat ≤ 0x7F ∧ 0x7F < (Char.ofNat 0x80).toNat := by decide

theorem witness_collision : (['a', 'b', 'c', 'd'] : List Char).take 4 = ['a', 'b', 'c', 'd', 'e'].take 4 ∧
    (['a', 'b'] : List Char).length + 2 ≤ 4 ∧ imageError red = none := by decide

theorem witness_dpack : 0xFFFFFFFF < (0x10000#32 : U32).toNat * (0x10000#32 : U32).toNat ∧
    ((0xFFFFFFFF#32 : U32).toNat * (1#32 : U32).toNat ≤ 0xFFFFFFFF ∧
      (0xFFFFFFFF#32 : U32).toNat * (1#32 : U32).toNat = 0xFFFFFFFF) ∧
    ((0#32 : U32).toNat * (7#32 : U32).toNat ≤ 0xFFFFFFFF ∧ (0#32 : U32).toNat * (7#32 : U32).toNat ≠ 1) := by decide

theorem witness_build_images : (255 < (List.replicate 256 red).length ∧ (List.replicate 255 red).length ≤ 255) ∧
    imageError ⟨['h', 'é'], 2#32, 2#32, []⟩ = some 0x25#8 ∧ imageError ⟨['h', 'é'], 0#32, 2#32, []⟩ = some 0x35#8 ∧
    imageError ⟨['h'], 65536#32, 65536#32, []⟩ = some 0x45#8 ∧ imageError red = none :=
  ⟨⟨by rw [List.length_replicate]; decide, Nat.le_of_eq List.length_replicate⟩, by decide⟩

theorem witness_built : ∃ t, exec (.build [red]) (idle cfgA []) = .next t ∧ t.payload = some (.rom t1) :=
  ⟨_, rfl, by decide⟩

/-- R100's failing half: the descriptor of the second image fails, and the tag of another does. -/
theorem witness_composition :
    (∃ t, exec (.dpack 2#32 2#32 1 magicA) (idle cfgA []) = .next t ∧ t.payload = none) ∧
    (∃ t, exec (.dpack 1#32 1#32 1 magicA) (idle cfgA []) = .next t ∧ t.payload ≠ none) ∧
    ∃ t, exec (.tag ['é']) (idle cfgA []) = .next t ∧ t.payload = none :=
  ⟨⟨_, rfl, by decide⟩, ⟨_, rfl, by decide⟩, _, rfl, by decide⟩

/-! ### Witnesses: the decode path -/

/-- An admitted input, one at `MAX_IN_LEN`, and one a byte beyond it. -/
theorem witness_admitted : cfgA.admitsLen t1.length = true ∧ cfgShort.admitsLen 3 = true ∧
    (Instr.hunpack [0#8, 0#8, 0#8]).wellFormed cfgShort = true ∧
    (Instr.hunpack [0#8, 0#8, 0#8, 0#8]).wellFormed cfgShort = false := by decide

theorem witness_hunpack : (t1.take 3).take 4 ≠ tagBytes magicA ∧ t1.take 4 = tagBytes magicA ∧
    t1 = tagBytes magicA ++ 1#8 :: t1.drop 5 := by decide

/-- T1 at 5 (good), 9 (dimensions disagree; exactly 16 bytes remain) and 10 (a byte short). -/
theorem witness_dunpack : (t1.length < 10 + 16 ∧ 9 + 16 ≤ t1.length) ∧
    (readU32 t1 9).toNat ≠ (readU32 t1 (9 + 8)).toNat * (readU32 t1 (9 + 12)).toNat ∧
    (readU32 t1 5).toNat = (readU32 t1 (5 + 8)).toNat * (readU32 t1 (5 + 12)).toNat ∧
    cfgA.dimCheck = .reject ∧ cfgIgnore.dimCheck = .ignore := by decide

/-- Two codes, the second out of range; the block that just fits, and the one that does not. -/
theorem witness_punpack : ([0#8, 0#8, 1#8, 2#8] : Bytes).length < 1 + 2 * 2 ∧
    0 + 2 * 2 ≤ ([0#8, 0#8, 1#8, 2#8] : Bytes).length ∧
    decodeLimit cfgA.decodeMax < (readU16 [0#8, 0#8, 1#8, 2#8] (0 + 2 * 1)).toNat ∧
    (∀ j < 1, (readU16 [0#8, 0#8, 1#8, 2#8] (0 + 2 * j)).toNat ≤ decodeLimit cfgA.decodeMax) ∧
    ∀ i < 2, (readU16 (t1.drop 21) (0 + 2 * i)).toNat ≤ decodeLimit cfgA.decodeMax := by decide

/-- The record of T1 as PARSE delivers it. -/
def redRecord : Record := ⟨⟨0x72#8, 0x65#8, 0x64#8, 0x20#8⟩, [0x72#8, 0x65#8, 0x64#8], 2#32, 1#32,
  [⟨224#8, 0#8, 0#8, 255#8⟩, ⟨0#8, 0#8, 0#8, 0#8⟩]⟩

theorem witness_parsed : ∃ t, exec (.parse t1) (idle cfgA []) = .next t ∧
    CompletesOk (idle cfgA []) t (.records [redRecord]) := ⟨_, rfl, Laws.completesOk_completeOk _ _⟩

/-- R121: T1 with a count of 2, walked past its one record; then the descriptor is cut, at 25. -/
theorem witness_cut_descriptor : Walk (idle cfgA []) (stream 2#8 0xC1#8 0x01#8) 1 5 [redRecord] 25 ∧
    (stream 2#8 0xC1#8 0x01#8).length < 25 + 16 :=
  ⟨⟨_, _, _, _, _, _, _, _, _, _, _, _, rfl, rfl, rfl, rfl, rfl, rfl, rfl, rfl, rfl⟩, by decide⟩

/-- R121: record 0 of `BAD` and of T1 without its last byte, and a record whose dimensions disagree. -/
theorem witness_record_errors : Walk (idle cfgA []) bad 0 5 [] 5 ∧
    (5 + 16 + 2 * (readU32 bad 5).toNat ≤ bad.length ∧
      decodeLimit cfgA.decodeMax < (readU16 bad (5 + 16 + 2 * 0)).toNat) ∧
    (t1.take 24).length < 5 + 16 + 2 * (readU32 (t1.take 24) 5).toNat ∧
    ((readU32 (t1.set 5 3#8) 5).toNat ≠
      (readU32 (t1.set 5 3#8) (5 + 8)).toNat * (readU32 (t1.set 5 3#8) (5 + 12)).toNat) :=
  ⟨⟨rfl, rfl⟩, by decide⟩

/-- T1 as a container of one record. -/
def redRaw : RawRecord := ⟨⟨0x72#8, 0x65#8, 0x64#8, 0x20#8⟩, 2#32, 1#32, [449#16, 0#16]⟩

theorem witness_container : containerBytes magicA [redRaw] = t1 ∧ RawRecord.acceptable cfgA redRaw := by
  refine ⟨by decide, ?_, ?_, ?_⟩
  · decide
  · intro _; decide
  · intro c hc
    simp only [redRaw, List.mem_cons, List.not_mem_nil, or_false] at hc
    rcases hc with rfl | rfl <;> decide

theorem witness_most_records : (List.replicate 255 redRaw).length ≤ 255 :=
  Nat.le_of_eq List.length_replicate

theorem witness_grid : redRecord.pixels.length = redRecord.width.toNat * redRecord.height.toNat ∧
    1 < redRecord.width.toNat ∧ 0 < redRecord.height.toNat ∧
    ({ redRecord with width := 3#32 } : Record).pixels.length ≠ 3 * redRecord.height.toNat := by decide

/-! ### Witnesses: round trips -/

/-- An image of one white pixel, and the container of table 2.7 for it. -/
def white : Image := ⟨['w'], 1#32, 1#32, [⟨255#8, 255#8, 255#8, 255#8⟩]⟩
def whiteRom : Bytes := [0x01#8, 0x02#8, 0x03#8, 0x04#8, 0x01#8] ++ [0x01#8, 0x00#8, 0x00#8, 0x00#8, 0x77#8, 0x20#8] ++
  [0x20#8, 0x20#8, 0x01#8, 0x00#8, 0x00#8, 0x00#8, 0x01#8, 0x00#8, 0x00#8, 0x00#8, 0x00#8, 0x02#8]

theorem witness_round_trip : (∃ t, exec (.build [white]) (idle cfgA []) = .next t ∧
      t.payload = some (.rom whiteRom)) ∧ cfgA.admitsLen whiteRom.length = true :=
  ⟨⟨_, rfl, by decide⟩, by decide⟩

/-- The readers of that container: one that agrees, one with `DECODE_MAX` = 511, one with another magic. -/
theorem witness_readers : (cfg511.magic = cfgA.magic ∧ cfg511.decodeMax = .max511) ∧
    (cfgIgnore.magic = cfgA.magic ∧ cfgIgnore.decodeMax = .max512) ∧
    { cfgA with magic := ⟨0#8, 2#8, 3#8, 4#8⟩ }.magic ≠ cfgA.magic ∧
    qenc ⟨255#8, 255#8, 255#8, 255#8⟩ = 512#16 ∧ qenc ⟨224#8, 224#8, 224#8, 1#8⟩ = 512#16 := by decide

theorem witness_names : tagOf ['a', 'b', ' '] noIndex = .ok ⟨0x61#8, 0x62#8, 0x20#8, 0x20#8⟩ ∧
    tagOf ['a', 'b', ' ', ' ', 'x'] noIndex = .ok ⟨0x61#8, 0x62#8, 0x20#8, 0x20#8⟩ ∧
    (['a', 'b', ' '] : List Char).take 4 = ['a', 'b'] ++ List.replicate 1 ' ' ∧
    (['a', 'b', ' ', ' ', 'x'] : List Char).take 4 = ['a', 'b'] ++ List.replicate 2 ' ' := ⟨rfl, rfl, by decide, by decide⟩

end Sys2Proof.Tests
end

section
/-! SUPPORT. The word `STATUS` of each event (30_encoding.md R66): its legality and its fields after an issue, a completion
without error, a completion with an error and a reset. A fact about every word is decided over the 256 bytes. -/
namespace Sys2Proof.Laws
open Sys2Proof.Machine

/-- An issue changes no bit of `STATUS` but `BUSY` (R25). -/
theorem statusAtIssue_maskBusy (st : Byte) : statusAtIssue st &&& 0xF7#8 = st &&& 0xF7#8 := by
  revert st; decide

@[simp] theorem statusBusy_statusAtIssue (st : Byte) : statusBusy (statusAtIssue st) = true := by
  revert st; decide

/-- An issue keeps `STATUS` in the table of R66, which masks `BUSY` out. -/
theorem statusLegal_statusAtIssue {st : Byte} (h : statusLegal st = true) : statusLegal (statusAtIssue st) = true := by
  rwa [statusLegal, statusAtIssue_maskBusy]

@[simp] theorem statusLegal_statusOk : statusLegal statusOk = true := by decide
@[simp] theorem statusBusy_statusOk : statusBusy statusOk = false := by decide
@[simp] theorem statusDone_statusOk : statusDone statusOk = true := by decide
@[simp] theorem statusKind_statusOk : statusKind statusOk = 0#2 := by decide

@[simp] theorem statusLegal_statusErr (reason : Reason) : statusLegal (statusErr reason) = true := by
  cases reason <;> decide
@[simp] theorem statusBusy_statusErr (reason : Reason) : statusBusy (statusErr reason) = false := by
  cases reason <;> decide
@[simp] theorem statusDone_statusErr (reason : Reason) : statusDone (statusErr reason) = true := by
  cases reason <;> decide
@[simp] theorem statusKind_statusErr_ne_ok (reason : Reason) : statusKind (statusErr reason) ≠ 0#2 := by
  cases reason <;> decide

@[simp] theorem statusLegal_zero : statusLegal 0#8 = true := by decide
@[simp] theorem statusBusy_zero : statusBusy 0#8 = false := by decide
@[simp] theorem statusDone_zero : statusDone 0#8 = false := by decide

end Sys2Proof.Laws
end

section
/-! SUPPORT. The shape of a payload (10_state.md R31): what a primitive that answers without error has answered, and from
it that every command delivers a payload in the shape R31 gives it. -/
namespace Sys2Proof.Laws
open Sys2Proof.Machine

/-- A mapped outcome is without error only when the outcome was. -/
theorem exceptMap_eq_ok {ε α β : Type} {f : α → β} {x : Except ε α} {v : β} (h : x.map f = .ok v) :
    ∃ a, x = .ok a ∧ v = f a := by
  cases x with
  | error e => cases h
  | ok a => injection h with h; exact ⟨a, rfl, h.symm⟩

/-- The alpha of a code's color is 0 or 255 (R83). -/
theorem codeColor_alpha (c : Code) : (codeColor c).a = 0#8 ∨ (codeColor c).a = 255#8 := by
  unfold codeColor
  split
  · exact .inl rfl
  · exact .inr rfl

/-- HPACK answers a header only for at most 255 images (R93). -/
theorem hpack_eq_ok {cfg : Config} {count : Nat} {bytes : Bytes} (h : hpack cfg count = .ok bytes) :
    count ≤ 255 ∧ bytes = tagBytes cfg.magic ++ [BitVec.ofNat 8 count] := by
  by_cases hc : count ≤ 255
  · rw [hpack_ok cfg hc] at h; injection h with h
    exact ⟨hc, h.symm⟩
  · rw [hpack_error cfg (by omega)] at h; cases h

/-- The count check passes only on a product that fits and is the number of pixels (R94). -/
theorem countCheck_eq_ok {w h : U32} {n : Nat} {idx : BitVec 16} {p : U32} (hc : countCheck w h n idx = .ok p) :
    w.toNat * h.toNat ≤ 0xFFFFFFFF ∧ w.toNat * h.toNat = n ∧ p = BitVec.ofNat 32 (w.toNat * h.toNat) := by
  by_cases ho : w.toNat * h.toNat ≤ 0xFFFFFFFF
  · by_cases hm : w.toNat * h.toNat = n
    · rw [countCheck_ok idx ho hm] at hc; injection hc with hc
      exact ⟨ho, hm, hc.symm⟩
    · rw [countCheck_mismatch idx ho hm] at hc; cases hc
  · rw [countCheck_overflow n idx (by omega)] at hc; cases hc

/-- DPACK answers a descriptor only when the count check passes (R95). -/
theorem dpack_eq_ok {w h : U32} {n : Nat} {t : Tag} {bytes : Bytes} (hd : dpack w h n t = .ok bytes) :
    ∃ p, countCheck w h n noIndex = .ok p ∧ bytes = descBytes p t w h := by
  unfold dpack at hd
  cases hc : countCheck w h n noIndex with
  | error e => rw [hc] at hd; cases hd
  | ok p => rw [hc] at hd; injection hd with hd; exact ⟨p, rfl, hd.symm⟩

@[simp] theorem length_descBytes (p : U32) (t : Tag) (w h : U32) : (descBytes p t w h).length = 16 := rfl

/-- HUNPACK answers a header only where one stands, and the records begin at 5 (R110). -/
theorem hunpack_eq_ok {cfg : Config} {input : Bytes} {r : Byte × Nat} (h : hunpack cfg input = .ok r) :
    ∃ n rest, input = tagBytes cfg.magic ++ n :: rest ∧ r = (n, 5) := by
  rcases stream_begins cfg.magic input with hb | rfl | ⟨n, rest, rfl⟩
  · rw [hunpack_badMagic cfg hb] at h; cases h
  · rw [hunpack_prematureEos] at h; cases h
  · rw [hunpack_ok] at h; injection h with h
    exact ⟨n, rest, rfl, h.symm⟩

theorem length_untag_le (t : Tag) : (untag t).length ≤ 4 := by
  rw [untag, List.length_take, length_tagBytes]
  omega

/-- A walk over `m` good records collects `m` records. -/
theorem length_of_goodRecords {cfg : Config} {input : Bytes} {m off last : Nat} {recs : List Record}
    (h : GoodRecords cfg input m off recs last) : recs.length = m := by
  induction m generalizing off recs with
  | zero => rw [h.1]; rfl
  | succ m ih =>
    obtain ⟨-, rest, rfl, hr⟩ := h
    rw [List.length_cons, ih hr]

/-- PARSE delivers at most 255 records: the count is one byte (R119). -/
theorem length_of_parse {cfg : Config} {input : Bytes} {recs : List Record} (h : parse cfg input = .ok recs) :
    recs.length ≤ 255 := by
  obtain ⟨n, rest, last, -, hg⟩ := parse_eq_ok.mp h
  rw [length_of_goodRecords hg]
  have := n.isLt
  omega

/-- Every command that completes without error delivers a payload in the shape of R31. -/
theorem perform_shaped {cfg : Config} {i : Instr} {v : Payload} (h : perform cfg i = .ok v) : v.shaped = true := by
  cases i with
  | qenc r g b a =>
    injection h with h; subst h
    exact decide_eq_true (qenc_le _)
  | qdec code =>
    obtain ⟨p, hp, rfl⟩ := exceptMap_eq_ok h
    obtain ⟨-, rfl⟩ := qdec_eq_ok hp
    exact decide_eq_true (codeColor_alpha code)
  | tag name =>
    obtain ⟨t, -, rfl⟩ := exceptMap_eq_ok h
    rfl
  | hpack count =>
    obtain ⟨bytes, hb, rfl⟩ := exceptMap_eq_ok h
    obtain ⟨-, rfl⟩ := hpack_eq_ok hb
    rfl
  | dpack w ht n t =>
    obtain ⟨bytes, hb, rfl⟩ := exceptMap_eq_ok h
    obtain ⟨p, -, rfl⟩ := dpack_eq_ok hb
    rfl
  | ppack pixels =>
    injection h with h; subst h
    have hl : (ppack pixels).length = 2 * pixels.length := length_ppack pixels
    simp only [Payload.shaped, hl, Nat.mul_mod_right, beq_self_eq_true]
  | build images =>
    obtain ⟨rom, hr, rfl⟩ := exceptMap_eq_ok h
    obtain ⟨-, -, rfl⟩ := build_eq_ok hr
    simp only [Payload.shaped, List.length_append, length_tagBytes, List.length_singleton, decide_eq_true_eq]
    omega
  | hunpack input =>
    obtain ⟨r, hr, rfl⟩ := exceptMap_eq_ok h
    obtain ⟨n, rest, -, rfl⟩ := hunpack_eq_ok hr
    rfl
  | dunpack input off =>
    obtain ⟨r, hr, rfl⟩ := exceptMap_eq_ok h
    obtain ⟨-, -, rfl⟩ := dunpack_eq_ok hr
    exact decide_eq_true (Nat.le_add_left 16 off)
  | untag t =>
    injection h with h; subst h
    exact decide_eq_true (length_untag_le t)
  | punpack input off n =>
    obtain ⟨r, hr, rfl⟩ := exceptMap_eq_ok h
    obtain ⟨-, -, rfl⟩ := punpack_eq_ok hr
    simp only [Payload.shaped, List.length_map, List.length_range, decide_eq_true_eq]
    omega
  | parse input =>
    obtain ⟨recs, hr, rfl⟩ := exceptMap_eq_ok h
    exact decide_eq_true (length_of_parse hr)

end Sys2Proof.Laws
end

section
/-! The machine invariant (00_scope.md R6, 10_state.md R21 to R31): one lemma per operation a step may perform, and the
step itself, by the cases of `step_next`. -/
namespace Sys2Proof.Laws
open Sys2Proof.Machine

/-- The invariant speaks of the configuration, the response and the command in progress alone: a state that agrees on
the first two, and whose command in progress is admitted, meets it too. -/
theorem inv_of_sameResponse {s t : State} (h : s.Inv) (hr : SameResponse s t) (hc : t.cfg = s.cfg)
    (hp : t.inProgress.isSome = s.inProgress.isSome)
    (ha : ∀ r, t.inProgress = some r → admits r.cmd t = true) : t.Inv where
  cfgOk := by rw [hc]; exact h.cfgOk
  busyIff := by rw [hr.status, hp]; exact h.busyIff
  statusOk := by rw [hr.status]; exact h.statusOk
  payloadIff := by rw [hr.payload, hr.status]; exact h.payloadIff
  errIndexIff := by rw [hr.errIndex, hr.status]; exact h.errIndexIff
  errOffsetIff := by rw [hr.errOffset, hr.status]; exact h.errOffsetIff
  payloadShaped := by rw [hr.payload]; exact h.payloadShaped
  admitted := ha

/-- What the host will do and what it last read are no part of the invariant. -/
theorem inv_host {s : State} (h : s.Inv) (host : List HostAction) (v : Option ReadValue) :
    { s with host := host, hostRead := v }.Inv :=
  inv_of_sameResponse h ⟨rfl, rfl, rfl, rfl⟩ rfl rfl h.admitted

/-- Whether a word is admitted depends on the configuration and on the command it makes with the buffers. -/
theorem admits_congr {cmd : Byte} {s t : State} (hc : t.cfg = s.cfg)
    (hd : decode cmd t.opnds = decode cmd s.opnds) : admits cmd t = admits cmd s := by
  simp only [admits, fetch, hd, hc]

/-- A write that is taken keeps the invariant: the command in progress stays the command that was admitted (R156). -/
theorem inv_write {s : State} (h : s.Inv) {w : OperandWrite} (hw : inUse w.target s = false)
    (host : List HostAction) : { s with host := host, opnds := w.apply s.opnds }.Inv := by
  refine inv_of_sameResponse h ⟨rfl, rfl, rfl, rfl⟩ rfl rfl fun r hr => ?_
  rw [← h.admitted r hr]
  exact admits_congr rfl (decode_of_free hw hr)

/-- The passing of time keeps the invariant: the command word stays, and only the working variables change. -/
theorem inv_passTime {s : State} (h : s.Inv) : (passTime s).Inv := by
  refine inv_of_sameResponse h ⟨passTime_status s, passTime_errIndex s, passTime_errOffset s, passTime_payload s⟩
    (passTime_cfg s) (passTime_inProgress_isSome s) fun r hr => ?_
  have hcmd := passTime_cmd s
  rw [hr] at hcmd
  obtain ⟨r', hr', he⟩ := Option.map_eq_some_iff.mp hcmd.symm
  rw [admits_congr (passTime_cfg s) (by rw [passTime_opnds]), ← he]
  exact h.admitted r' hr'

/-- The issue of an admitted word keeps the invariant (R30). -/
theorem inv_startCommand {s : State} (h : s.Inv) {cmd : Byte} (ha : admits cmd s = true) :
    (startCommand cmd s).Inv where
  cfgOk := h.cfgOk
  busyIff := statusBusy_statusAtIssue s.status
  statusOk := statusLegal_statusAtIssue h.statusOk
  payloadIff := by
    simp only [startCommand_payload, startCommand_status, statusBusy_statusAtIssue, Option.isSome_none,
      Bool.not_true, Bool.and_false, Bool.false_and]
  errIndexIff := by
    simp only [startCommand_errIndex, startCommand_status, statusBusy_statusAtIssue, Option.isSome_none,
      Bool.not_true, Bool.and_false, Bool.false_and]
  errOffsetIff := by
    simp only [startCommand_errOffset, startCommand_status, statusBusy_statusAtIssue, Option.isSome_none,
      Bool.not_true, Bool.and_false, Bool.false_and]
  payloadShaped := fun _ hv => nomatch hv
  admitted := by
    intro r hr
    rw [startCommand_inProgress] at hr
    cases hr
    rwa [admits_congr (startCommand_cfg cmd s) (by rw [startCommand_opnds])]

/-- Completion without error establishes the response part of the invariant (R30, R66). -/
theorem inv_completeOk {s : State} (hc : s.cfg.wf = true) {v : Payload} (hv : v.shaped = true) :
    (completeOk v s).Inv where
  cfgOk := hc
  busyIff := statusBusy_statusOk
  statusOk := statusLegal_statusOk
  payloadIff := by rw [completeOk_payload, completeOk_status]; rfl
  errIndexIff := by rw [completeOk_errIndex, completeOk_status]; rfl
  errOffsetIff := by rw [completeOk_errOffset, completeOk_status]; rfl
  payloadShaped := by rintro _ ⟨⟩; exact hv
  admitted := fun _ hr => nomatch hr

/-- So does completion with an error (R30, R138). -/
theorem inv_raiseError {s : State} (hc : s.cfg.wf = true) (e : CmdError) : (raiseError e s).Inv where
  cfgOk := hc
  busyIff := statusBusy_statusErr e.reason
  statusOk := statusLegal_statusErr e.reason
  payloadIff := by
    simp only [raiseError_payload, raiseError_status, statusDone_statusErr, statusBusy_statusErr,
      statusKind_statusErr_ne_ok, Option.isSome_none, decide_false, Bool.and_false]
  errIndexIff := by
    simp only [raiseError_errIndex, raiseError_status, statusDone_statusErr, statusBusy_statusErr,
      statusKind_statusErr_ne_ok, Option.isSome_some, ne_eq, not_false_eq_true, decide_true, Bool.not_false, Bool.and_true]
  errOffsetIff := by
    simp only [raiseError_errOffset, raiseError_status, statusDone_statusErr, statusBusy_statusErr,
      statusKind_statusErr_ne_ok, Option.isSome_some, ne_eq, not_false_eq_true, decide_true, Bool.not_false, Bool.and_true]
  payloadShaped := fun _ hv => nomatch hv
  admitted := fun _ hr => nomatch hr

/-- A reset keeps the invariant (R150). -/
theorem inv_resetBlock {s : State} (h : s.Inv) : (resetBlock s).Inv where
  cfgOk := h.cfgOk
  busyIff := statusBusy_zero
  statusOk := statusLegal_zero
  payloadIff := by rw [resetBlock_payload, resetBlock_status]; rfl
  errIndexIff := by rw [resetBlock_errIndex, resetBlock_status]; rfl
  errOffsetIff := by rw [resetBlock_errOffset, resetBlock_status]; rfl
  payloadShaped := fun _ hv => nomatch hv
  admitted := fun _ hr => nomatch hr

/-- The step that lets the block go on keeps the invariant: an idle block is left as it is, and the command in progress
completes with a shaped payload or an error. -/
theorem inv_finishCommand {s t : State} (h : s.Inv) (hf : finishCommand s = .next t) : t.Inv := by
  rcases finishCommand_next hf with ⟨-, rfl⟩ | ⟨r, -, o, rfl, ho⟩
  · exact h
  · cases o with
    | error e => exact inv_raiseError h.cfgOk e
    | ok v =>
      rcases ho with ⟨i, -, -, hp⟩ | ⟨why, -, he⟩
      · exact inv_completeOk h.cfgOk (perform_shaped hp.symm)
      · cases he

/-- Settles O3, by the cases of a step: a completion, an issue, a write, a read and a reset each keep the invariant. -/
theorem everyStepKeepsTheMachineInvariant : Obligations.EveryStepKeepsTheMachineInvariant := by
  intro s t h hstep
  rcases step_next hstep with ⟨-, hf⟩ | ⟨rest, -, hf⟩ | ⟨cmd, rest, -, -, ha, rfl⟩ | ⟨w, rest, -, hw, rfl⟩ |
    ⟨reg, rest, v, -, -, rfl⟩ | ⟨rest, -, rfl⟩
  · exact inv_finishCommand h hf
  · exact inv_finishCommand (inv_host h rest s.hostRead) hf
  · exact inv_startCommand (inv_host h rest s.hostRead) ha
  · exact inv_passTime (inv_write h hw rest)
  · exact inv_passTime (inv_host h rest (some v))
  · exact inv_resetBlock (inv_host h rest s.hostRead)

end Sys2Proof.Laws
end

section
/-! SUPPORT. One equation per host action for `step`, one per case for `finishCommand`: later proofs cite these
and do not unfold the step. -/
namespace Sys2Proof.Laws
open Sys2Proof.Machine

theorem step_nil {s : State} (h : s.host = []) : step s = finishCommand s := by
  simp only [step, h]

theorem step_wait {s : State} {rest : List HostAction} (h : s.host = .wait :: rest) :
    step s = finishCommand { s with host := rest } := by
  simp only [step, h]

/-- An issue while `BUSY` = 1 is not taken, and the command in progress completes (R155). -/
theorem step_issue_busy {s : State} {cmd : Byte} {rest : List HostAction} (h : s.host = .issue cmd :: rest)
    (hb : statusBusy s.status = true) : step s = finishCommand s := by
  simp only [step, h, hb, if_true]

theorem step_issue_idle {s : State} {cmd : Byte} {rest : List HostAction} (h : s.host = .issue cmd :: rest)
    (hb : statusBusy s.status = false) : step s = issue cmd { s with host := rest } := by
  simp only [step, h, hb, Bool.false_eq_true, if_false]

theorem step_write {s : State} {w : OperandWrite} {rest : List HostAction} (h : s.host = .write w :: rest) :
    step s = writeBuffer w { s with host := rest } := by
  simp only [step, h]

theorem step_read {s : State} {reg : ResponseReg} {rest : List HostAction} (h : s.host = .read reg :: rest) :
    step s = readReg reg { s with host := rest } := by
  simp only [step, h]

theorem step_reset {s : State} {rest : List HostAction} (h : s.host = .reset :: rest) :
    step s = .next (resetBlock { s with host := rest }) := by
  simp only [step, h]

theorem finishCommand_idle {s : State} (h : s.inProgress = none) : finishCommand s = .next s := by
  simp only [finishCommand, h]

/-- A word in progress that selects a command is completed by that command (R61). -/
theorem finishCommand_decoded {s : State} {r : Running} {i : Instr} (h : s.inProgress = some r)
    (hd : decode r.cmd s.opnds = .ok i) : finishCommand s = exec i s := by
  simp only [finishCommand, h, fetch, hd]

/-- The outcome of a command word: its command's (R32), or the error of a word that selects none (R61). -/
def wordOutcome (cfg : Config) (cmd : Byte) (o : OperandRecord) : Except CmdError Payload :=
  match decode cmd o with
  | .ok i => perform cfg i
  | .error why => .error ⟨rejectReason why, noIndex, noOffset⟩

/-- What the step that lets a command in progress go on does: it completes an admitted word with the word's outcome,
which depends on the configuration, the word and the buffers alone (R32). -/
theorem finishCommand_busy {s : State} {r : Running} (h : s.inProgress = some r) :
    finishCommand s = if admits r.cmd s = true then .next (complete (wordOutcome s.cfg r.cmd s.opnds) s)
      else .refused .inputTooLong := by
  cases hd : decode r.cmd s.opnds with
  | ok i => simp only [finishCommand_decoded h hd, exec_eq_perform, admits, fetch, wordOutcome, hd]
  | error why => simp only [finishCommand, h, admits, fetch, wordOutcome, hd, rejectCommand, complete_error, if_true]

end Sys2Proof.Laws
end

section
/-! SUPPORT. When each operation of a step goes on (20_memory.md R41, 60_exceptions.md R140, 70_reset_and_hazards.md R155
to R157), and from it when a step does and what it performs. -/
namespace Sys2Proof.Laws
open Sys2Proof.Machine

/-- In the invariant the command in progress was admitted, so the block always goes on (R140). -/
theorem finishCommand_goes_on {s : State} (h : s.Inv) : ∃ t, finishCommand s = .next t := by
  cases hp : s.inProgress with
  | none => exact ⟨s, finishCommand_idle hp⟩
  | some r => exact ⟨_, by rw [finishCommand_busy hp, if_pos (h.admitted r hp)]⟩

theorem issue_goes_on_iff (cmd : Byte) (s : State) : (∃ t, issue cmd s = .next t) ↔ admits cmd s = true := by
  rcases issue_cases cmd s with ⟨ha, hi⟩ | ⟨ha, hi⟩ <;> simp [ha, hi]

theorem readReg_goes_on_iff (reg : ResponseReg) (s : State) :
    (∃ t, readReg reg s = .next t) ↔ readable reg s = true := by
  rcases readReg_cases reg s with ⟨ha, v, hv, -⟩ | ⟨ha, hv⟩ <;> simp [ha, hv]

theorem writeBuffer_goes_on_iff (w : OperandWrite) (s : State) :
    (∃ t, writeBuffer w s = .next t) ↔ inUse w.target s = false := by
  rcases writeBuffer_cases w s with ⟨ha, hw⟩ | ⟨ha, hw⟩ <;> simp [ha, hw]

/-- Settles O4, by the host's next action: each goes on exactly when its duty is kept, and a completion always does. -/
theorem stepGoesOnExactlyWhenTheHostKeepsItsDuties : Obligations.StepGoesOnExactlyWhenTheHostKeepsItsDuties := by
  intro s h
  unfold hostDuty
  match hh : s.host with
  | [] => simpa only [step_nil hh, iff_true] using finishCommand_goes_on h
  | .wait :: rest => simpa only [step_wait hh, iff_true] using finishCommand_goes_on (inv_host h rest s.hostRead)
  | .issue cmd :: rest =>
    cases hb : statusBusy s.status with
    | true => simpa only [step_issue_busy hh hb, Bool.true_or, iff_true] using finishCommand_goes_on h
    | false =>
      simp only [step_issue_idle hh hb, Bool.false_or]
      exact issue_goes_on_iff cmd _
  | .write w :: rest =>
    simp only [step_write hh, Bool.not_eq_true']
    exact writeBuffer_goes_on_iff w _
  | .read reg :: rest =>
    rw [step_read hh]
    exact readReg_goes_on_iff reg _
  | .reset :: rest => exact iff_of_true ⟨_, step_reset hh⟩ rfl

/-- Settles O5: with nothing to do, a wait or an issue while busy, the step is the completion, which runs `exec`. -/
theorem stepPerformsTheDecodedCommand : Obligations.StepPerformsTheDecodedCommand := by
  intro s r i hp hd
  refine ⟨fun hh => ?_, fun rest hh => ?_, fun cmd rest hh hb => ?_⟩
  · rw [step_nil hh, finishCommand_decoded hp hd]
  · rw [step_wait hh]
    exact finishCommand_decoded hp hd
  · rw [step_issue_busy hh hb, finishCommand_decoded hp hd]

end Sys2Proof.Laws
end

section
/-! SUPPORT. The command word (30_encoding.md R60 to R63): a command's own word decodes to it, and a word that decodes to
a command is that command's own. -/
namespace Sys2Proof.Laws
open Sys2Proof.Machine

/-- Every command has a word with its reserved bits 0 that decodes to it. -/
theorem CommandWord.statement (i : Instr) : CommandWord.Statement i := by
  cases i with
  | qenc r g b a => exact CommandWord.qenc r g b a
  | qdec code => exact CommandWord.qdec code
  | tag name => exact CommandWord.tag name
  | hpack count => exact CommandWord.hpack count
  | dpack width height nPixels nameTag => exact CommandWord.dpack width height nPixels nameTag
  | ppack pixels => exact CommandWord.ppack pixels
  | build images => exact CommandWord.build images
  | hunpack input => exact CommandWord.hunpack input
  | dunpack input off => exact CommandWord.dunpack input off
  | untag nameTag => exact CommandWord.untag nameTag
  | punpack input off n => exact CommandWord.punpack input off n
  | parse input => exact CommandWord.parse input

/-- Settles O9, by the command: each one's word selects the arm that reads exactly the buffers just placed. -/
theorem encodedCommandDecodesToItself : Obligations.EncodedCommandDecodesToItself :=
  fun i => (CommandWord.statement i).2

/-- A word with its reserved bits 0 is its `OP` field. -/
theorem eq_setWidth_cmdOp {cmd : Byte} (h : cmdRsv cmd = 0#4) : cmd = (cmdOp cmd).setWidth 8 := by
  revert cmd; decide

/-- An `OP` value that selects a command is the one in that command's word (R62). -/
theorem encodeWord_of_decodeOp {op : BitVec 4} {o : OperandRecord} {i : Instr} (h : decodeOp op o = some i) :
    encodeWord i = op.setWidth 8 := by
  apply BitVec.eq_of_toNat_eq
  rw [BitVec.toNat_setWidth_of_le (by decide)]
  unfold decodeOp at h
  split at h <;> cases h
  all_goals exact Eq.symm ‹op.toNat = _›

/-- A word that decodes to a command is that command's word. -/
theorem encodeWord_of_decode {cmd : Byte} {o : OperandRecord} {i : Instr} (h : decode cmd o = .ok i) :
    encodeWord i = cmd := by
  unfold decode at h
  split at h
  · cases h
  · rename_i hv
    split at h
    · cases h
    · rename_i j hj
      cases h
      rw [encodeWord_of_decodeOp hj, ← eq_setWidth_cmdOp (Decidable.not_not.mp hv)]

/-- Settles O11: the word is the command's own, and O9 places the command's operands in any other buffers. -/
theorem commandReadsOnlyItsOwnOperands : Obligations.CommandReadsOnlyItsOwnOperands := by
  intro cmd o o' i h
  rw [← encodeWord_of_decode h]
  exact encodedCommandDecodesToItself i o'

end Sys2Proof.Laws
end

section
/-! SUPPORT. What each event does to the configuration and the response (10_state.md R21 to R30, 60_exceptions.md R138):
a completion, an issue, a host write and a host read. -/
namespace Sys2Proof.Laws
open Sys2Proof.Machine

/-- An issue sets `BUSY`, bit 3, and no other bit (R25, R66). -/
theorem statusAtIssue_eq_or (st : Byte) : statusAtIssue st = st ||| 0x08#8 := by
  revert st; decide

@[simp] theorem statusBusy_complete (o : Except CmdError Payload) (s : State) :
    statusBusy (complete o s).status = false := by
  cases o with
  | ok v => exact statusBusy_statusOk
  | error e => exact statusBusy_statusErr e.reason

@[simp] theorem statusDone_complete (o : Except CmdError Payload) (s : State) :
    statusDone (complete o s).status = true := by
  cases o with
  | ok v => exact statusDone_statusOk
  | error e => exact statusDone_statusErr e.reason

/-- The block goes on from idle by staying as it is, or from a command in progress by completing it with some outcome. -/
theorem finishCommand_stays_or_completes {s t : State} (h : finishCommand s = .next t) :
    (s.inProgress = none ∧ t = s) ∨ (s.inProgress.isSome = true ∧ ∃ o, t = complete o s) := by
  rcases finishCommand_next h with ⟨hp, rfl⟩ | ⟨r, hp, o, rfl, -⟩
  · exact .inl ⟨hp, rfl⟩
  · exact .inr ⟨by rw [hp]; rfl, o, rfl⟩

theorem finishCommand_cfg {s t : State} (h : finishCommand s = .next t) : t.cfg = s.cfg := by
  rcases finishCommand_stays_or_completes h with ⟨-, rfl⟩ | ⟨-, o, rfl⟩
  · rfl
  · exact complete_cfg o s

/-- In the invariant, going on leaves `STATUS` alone or clears `BUSY` and sets `DONE` (R25). -/
theorem finishCommand_status {s t : State} (hi : s.Inv) (h : finishCommand s = .next t) :
    t.status = s.status ∨
      (statusBusy s.status = true ∧ statusBusy t.status = false ∧ statusDone t.status = true ∧ t.inProgress = none) := by
  rcases finishCommand_stays_or_completes h with ⟨-, rfl⟩ | ⟨hp, o, rfl⟩
  · exact .inl rfl
  · exact .inr ⟨hi.busyIff.trans hp, statusBusy_complete o s, statusDone_complete o s, complete_inProgress o s⟩

/-- In the invariant no register of the response holds a value while a command is in progress (R26 to R28). -/
theorem inv_no_response {s : State} (h : s.Inv) (hp : s.inProgress.isSome = true) :
    s.payload = none ∧ s.errIndex = none ∧ s.errOffset = none := by
  have hb : statusBusy s.status = true := h.busyIff.trans hp
  refine ⟨?_, ?_, ?_⟩ <;> rw [← Option.isSome_eq_false_iff.trans Option.isNone_iff_eq_none]
  · simp [h.payloadIff, hb]
  · simp [h.errIndexIff, hb]
  · simp [h.errOffsetIff, hb]

/-- The passing of time changes no register of the response. -/
theorem passTime_sameResponse {s t : State} (h : SameResponse s t) : SameResponse s (passTime t) :=
  ⟨(passTime_status t).trans h.status, (passTime_errIndex t).trans h.errIndex,
    (passTime_errOffset t).trans h.errOffset, (passTime_payload t).trans h.payload⟩

/-- Settles O14, by the cases of a step. -/
theorem statusIsWrittenAtIssueAndCompletionOnly : Obligations.StatusIsWrittenAtIssueAndCompletionOnly := by
  intro s t hi hstep
  rcases step_next hstep with ⟨-, hf⟩ | ⟨rest, -, hf⟩ | ⟨cmd, rest, hh, hb, -, rfl⟩ | ⟨w, rest, -, -, rfl⟩ |
    ⟨reg, rest, v, -, -, rfl⟩ | ⟨rest, hh, rfl⟩
  · exact (finishCommand_status hi hf).imp_right fun hc => .inr (.inl hc)
  · exact (finishCommand_status (inv_host hi rest s.hostRead) hf).imp_right fun hc => .inr (.inl hc)
  · exact .inr (.inl ⟨cmd, rest, hh, hb, statusAtIssue_eq_or s.status⟩)
  · exact .inl (passTime_status _)
  · exact .inl (passTime_status _)
  · exact .inr (.inr (.inr ⟨rest, hh, rfl⟩))

/-- Settles O20, by the cases of a step. -/
theorem configurationIsFixedForTheLifeOfTheInstance : Obligations.ConfigurationIsFixedForTheLifeOfTheInstance := by
  intro s t hstep
  rcases step_next hstep with ⟨-, hf⟩ | ⟨rest, -, hf⟩ | ⟨cmd, rest, -, -, -, rfl⟩ | ⟨w, rest, -, -, rfl⟩ |
    ⟨reg, rest, v, -, -, rfl⟩ | ⟨rest, -, rfl⟩
  · exact finishCommand_cfg hf
  · exact (finishCommand_cfg hf :)
  · exact startCommand_cfg cmd _
  · exact passTime_cfg _
  · exact passTime_cfg _
  · exact resetBlock_cfg _

/-- What the pseudocode of the commands that count or loop fixes in the working variables at issue (R97, R99, R116,
R119). -/
theorem initialWork_loops (cmd : Byte) (s : State) :
    (∀ images, decode cmd s.opnds = .ok (.build images) →
      (initialWork cmd s).n = images.length ∧ (initialWork cmd s).k = 0 ∧ (initialWork cmd s).i = 0) ∧
    (∀ input, decode cmd s.opnds = .ok (.parse input) → (initialWork cmd s).k = 0 ∧ (initialWork cmd s).i = 0) ∧
    (∀ pixels, decode cmd s.opnds = .ok (.ppack pixels) → (initialWork cmd s).i = 0) ∧
    (∀ input off n, decode cmd s.opnds = .ok (.punpack input off n) → (initialWork cmd s).i = 0) := by
  refine ⟨fun images hd => ?_, fun input hd => ?_, fun pixels hd => ?_, fun input off n hd => ?_⟩ <;>
    simp only [initialWork_ok hd, commandWork, and_self]

/-- Settles O15: an admitted issue to an idle block is `startCommand`; and the invariant after the step (O3) says that
the registers hold no value until completion. -/
theorem issueEndsThePreviousResponse : Obligations.IssueEndsThePreviousResponse := by
  refine ⟨fun s cmd rest hh hb ha => ?_, fun s t hi hstep =>
    inv_no_response (everyStepKeepsTheMachineInvariant s t hi hstep)⟩
  obtain ⟨hcur, hout, hrecs⟩ := initialWork_fixed cmd { s with host := rest }
  refine ⟨startCommand cmd { s with host := rest }, ?_, statusAtIssue_eq_or s.status, rfl, rfl, rfl,
    ⟨_, rfl, hcur, hout, hrecs, initialWork_loops cmd { s with host := rest }⟩, rfl, rfl, rfl⟩
  rw [step_issue_idle hh hb]
  exact if_pos ha

/-- Settles O17: a write is refused exactly when its buffer is in use, and one that is taken lets time pass. -/
theorem writingAnOperandOfARunningCommandIsRefused : Obligations.WritingAnOperandOfARunningCommandIsRefused := by
  refine ⟨fun s r i w rest hp hh hd hm => ?_, fun s w rest hh hfree => ?_,
    fun _ _ _ _ => rfl, fun _ => rfl, fun _ => rfl, fun _ => rfl, fun _ _ _ _ => rfl, fun _ => rfl, fun _ => rfl,
    fun _ => rfl, fun _ _ => rfl, fun _ => rfl, fun _ _ _ => rfl, fun _ => rfl⟩
  · have hu : inUse w.target { s with host := rest } = true := inUse_iff.mpr ⟨r, i, hp, hd, hm⟩
    rw [step_write hh]
    exact if_pos hu
  · have hu : inUse w.target { s with host := rest } = false := by
      refine Bool.eq_false_iff.mpr fun hu => ?_
      obtain ⟨r, i, hp, hd, hm⟩ := inUse_iff.mp hu
      exact hfree r i hp hd hm
    refine ⟨passTime { s with host := rest, opnds := w.apply s.opnds }, ?_, passTime_opnds _,
      passTime_sameResponse ⟨rfl, rfl, rfl, rfl⟩, passTime_cmd _, fun r hp => ?_, passTime_host _, passTime_cfg _,
      passTime_hostRead _⟩
    · rw [step_write hh]
      exact if_neg (by simp [hu])
    · rw [passTime_opnds]
      exact decode_of_free hu hp

/-- Settles O18, by the two things a host read can do. -/
theorem readsReturnTheHeldValueOrAreRefused : Obligations.ReadsReturnTheHeldValueOrAreRefused := by
  intro s reg rest hh
  rw [step_read hh]
  rcases readReg_cases reg { s with host := rest } with ⟨hr, v, hv, hval⟩ | ⟨hr, hv⟩
  · refine ⟨fun hn => ?_, fun _ => ⟨_, v, hv, passTime_hostRead _, passTime_sameResponse ⟨rfl, rfl, rfl, rfl⟩,
      passTime_host _, hval⟩⟩
    exact absurd (hr.symm.trans hn) Bool.true_eq_false.mp
  · refine ⟨fun _ => hv, fun hn => ?_⟩
    exact absurd (hn.symm.trans hr) Bool.true_eq_false.mp

end Sys2Proof.Laws
end

section
/-! SUPPORT. What holds of every command (10_state.md R30, R32; 20_memory.md R41, R59; 60_exceptions.md R138, R140): the
frame of a completion, and when there is one. -/
namespace Sys2Proof.Laws
open Sys2Proof.Machine

/-- A completion leaves the host and the configuration alone. -/
theorem complete_hostUnchanged (o : Except CmdError Payload) (s : State) : HostUnchanged s (complete o s) :=
  ⟨complete_cfg o s, complete_opnds o s, complete_host o s, complete_hostRead o s, complete_freeCount o s⟩

/-- A completion is one without error or one with a nonzero kind of error. -/
theorem complete_ok_or_error (o : Except CmdError Payload) (s : State) :
    (∃ v, CompletesOk s (complete o s) v) ∨
      ∃ st idx off, CompletesErr s (complete o s) st idx off ∧ statusKind st ≠ 0#2 := by
  cases o with
  | ok v => exact .inl ⟨v, completesOk_completeOk v s⟩
  | error e => exact .inr ⟨_, _, _, completesErr_raiseError e s, statusKind_statusErr_ne_ok e.reason⟩

/-- Settles O24: whatever the command, the next state is a completion. -/
theorem everyCommandChangesOnlyTheResponse : Obligations.EveryCommandChangesOnlyTheResponse := by
  intro i s t h
  obtain ⟨-, rfl⟩ := exec_next h
  exact ⟨complete_hostUnchanged _ s, fun addr n => by rw [complete_opnds], complete_ok_or_error _ s⟩

/-- Settles O25: being well formed is the one condition every command tests. -/
theorem everyAdmittedCommandCompletes : Obligations.EveryAdmittedCommandCompletes := by
  intro i s
  refine ⟨fun hw => ⟨_, exec_of_wellFormed hw⟩, fun hw => ?_⟩
  rw [exec_eq_perform, if_neg (by simp [hw])]

end Sys2Proof.Laws
end

section
/-! SUPPORT. Noninterference (10_state.md R29, R32, R35): a step from two states that the host cannot tell apart gives two
states that it cannot tell apart, and a completion writes the same response over any earlier one. -/
namespace Sys2Proof.Laws
open Sys2Proof.Machine

/-- Two states that agree on all but the working variables and the counter of free values: no host action tells them
apart (R35). -/
structure SameToHost (s t : State) : Prop where
  response : SameResponse s t
  cfg      : t.cfg = s.cfg
  opnds    : t.opnds = s.opnds
  host     : t.host = s.host
  hostRead : t.hostRead = s.hostRead
  cmd      : t.inProgress.map Running.cmd = s.inProgress.map Running.cmd

/-- Two answers of a step that the host cannot tell apart. -/
inductive SameAnswer : Result → Result → Prop where
  | next {s t : State} (h : SameToHost s t) : SameAnswer (.next s) (.next t)
  | refused (e : Refusal) : SameAnswer (.refused e) (.refused e)

theorem SameAnswer.of_next {s : State} {a : Result} (h : SameAnswer (.next s) a) :
    ∃ t, a = .next t ∧ SameToHost s t := by
  cases h with
  | next h => exact ⟨_, rfl, h⟩

theorem SameAnswer.of_refused {e : Refusal} {a : Result} (h : SameAnswer (.refused e) a) : a = .refused e := by
  cases h; rfl

/-- A completion leaves nothing of the response before it. -/
theorem complete_sameResponse (o : Except CmdError Payload) (s t : State) :
    SameResponse (complete o s) (complete o t) := by
  cases o <;> exact ⟨rfl, rfl, rfl, rfl⟩

section
variable {s t : State}

/-- What the host has changed on its own side is no part of the response. -/
theorem sameResponse_hostSide (h : SameResponse s t) {o o' : OperandRecord} {host host' : List HostAction}
    {v v' : Option ReadValue} : SameResponse { s with opnds := o, host := host, hostRead := v }
      { t with opnds := o', host := host', hostRead := v' } :=
  ⟨h.status, h.errIndex, h.errOffset, h.payload⟩

theorem SameToHost.setHost (h : SameToHost s t) (host : List HostAction) :
    SameToHost { s with host := host } { t with host := host } :=
  ⟨sameResponse_hostSide h.response, h.cfg, h.opnds, rfl, h.hostRead, h.cmd⟩

theorem SameToHost.passTime_same (h : SameToHost s t) : SameToHost (passTime s) (passTime t) where
  response := by
    obtain ⟨h1, h2, h3, h4⟩ := h.response
    constructor <;> simpa
  cfg := by simpa using h.cfg
  opnds := by simpa using h.opnds
  host := by simpa using h.host
  hostRead := by simpa using h.hostRead
  cmd := by rw [passTime_cmd, passTime_cmd, h.cmd]

theorem SameToHost.complete_same (h : SameToHost s t) (o : Except CmdError Payload) :
    SameToHost (complete o s) (complete o t) where
  response := complete_sameResponse o s t
  cfg := by simpa using h.cfg
  opnds := by simpa using h.opnds
  host := by simpa using h.host
  hostRead := by simpa using h.hostRead
  cmd := by simp

theorem SameToHost.admits_eq (h : SameToHost s t) (cmd : Byte) : admits cmd t = admits cmd s :=
  admits_congr h.cfg (by rw [h.opnds])

theorem SameToHost.finishCommand_same (h : SameToHost s t) : SameAnswer (finishCommand s) (finishCommand t) := by
  cases hs : s.inProgress with
  | none =>
    have ht : t.inProgress = none := by simpa [hs] using h.cmd
    rw [finishCommand_idle hs, finishCommand_idle ht]
    exact .next h
  | some r =>
    obtain ⟨r', ht, hc⟩ : ∃ r', t.inProgress = some r' ∧ r'.cmd = r.cmd := by simpa [hs] using h.cmd
    rw [finishCommand_busy hs, finishCommand_busy ht, hc, h.admits_eq, h.cfg, h.opnds]
    split
    · exact .next (h.complete_same _)
    · exact .refused _

theorem SameToHost.issue_same (h : SameToHost s t) (cmd : Byte) : SameAnswer (issue cmd s) (issue cmd t) := by
  unfold issue
  rw [h.admits_eq]
  split
  · exact .next ⟨⟨congrArg statusAtIssue h.response.status, rfl, rfl, rfl⟩, h.cfg, h.opnds, h.host, h.hostRead, rfl⟩
  · exact .refused _

/-- Whether a buffer is in use is seen from the command word and the buffers. -/
theorem SameToHost.inUse_eq (h : SameToHost s t) (buf : OperandName) : inUse buf t = inUse buf s := by
  cases hs : s.inProgress with
  | none =>
    have ht : t.inProgress = none := by simpa [hs] using h.cmd
    simp only [inUse, hs, ht]
  | some r =>
    obtain ⟨r', ht, hc⟩ : ∃ r', t.inProgress = some r' ∧ r'.cmd = r.cmd := by simpa [hs] using h.cmd
    simp only [inUse, hs, ht, hc, fetch, h.opnds]

theorem SameToHost.writeBuffer_same (h : SameToHost s t) (w : OperandWrite) :
    SameAnswer (writeBuffer w s) (writeBuffer w t) := by
  unfold writeBuffer
  rw [h.inUse_eq]
  split
  · exact .refused _
  · refine .next (SameToHost.passTime_same ?_)
    exact ⟨sameResponse_hostSide h.response, h.cfg, congrArg w.apply h.opnds, h.host, h.hostRead, h.cmd⟩

/-- The value a read of a register returns, if it may be read now (R28, R157). -/
def heldValue (reg : ResponseReg) (s : State) : Option ReadValue :=
  match reg with
  | .status => some (.status s.status)
  | .errIndex => if responseReady s then s.errIndex.map .errIndex else none
  | .errOffset => if responseReady s then s.errOffset.map .errOffset else none
  | .payload => if responseReady s then s.payload.map .payload else none

/-- A read answers with the held value alone. -/
theorem readReg_eq_heldValue (reg : ResponseReg) (s : State) :
    readReg reg s = (heldValue reg s).elim (.refused (.readNoValue reg)) fun v => readReturns v s := by
  cases reg with
  | status => rfl
  | errIndex => cases hr : responseReady s <;> cases hv : s.errIndex <;> simp [readReg, heldValue, hr, hv]
  | errOffset => cases hr : responseReady s <;> cases hv : s.errOffset <;> simp [readReg, heldValue, hr, hv]
  | payload => cases hr : responseReady s <;> cases hv : s.payload <;> simp [readReg, heldValue, hr, hv]

/-- The held values are those of the response. -/
theorem heldValue_congr (h : SameResponse s t) (reg : ResponseReg) :
    heldValue reg t = heldValue reg s := by
  have hr : responseReady t = responseReady s := by simp only [responseReady, h.status]
  cases reg <;> simp only [heldValue, hr, h.status, h.errIndex, h.errOffset, h.payload]

theorem SameToHost.readReg_same (h : SameToHost s t) (reg : ResponseReg) :
    SameAnswer (readReg reg s) (readReg reg t) := by
  rw [readReg_eq_heldValue, readReg_eq_heldValue, heldValue_congr h.response]
  cases heldValue reg s with
  | none => exact .refused _
  | some v =>
    refine .next (SameToHost.passTime_same ?_)
    exact ⟨sameResponse_hostSide h.response, h.cfg, h.opnds, h.host, rfl, h.cmd⟩

/-- Noninterference of the step: what the host cannot tell apart before it, it cannot tell apart after it (R35). -/
theorem SameToHost.step_same (h : SameToHost s t) : SameAnswer (step s) (step t) := by
  match hh : s.host with
  | [] =>
    rw [step_nil hh, step_nil (h.host.trans hh)]
    exact h.finishCommand_same
  | .wait :: rest =>
    rw [step_wait hh, step_wait (h.host.trans hh)]
    exact (h.setHost rest).finishCommand_same
  | .issue cmd :: rest =>
    cases hb : statusBusy s.status with
    | true =>
      rw [step_issue_busy hh hb, step_issue_busy (h.host.trans hh) (by rw [h.response.status, hb])]
      exact h.finishCommand_same
    | false =>
      rw [step_issue_idle hh hb, step_issue_idle (h.host.trans hh) (by rw [h.response.status, hb])]
      exact (h.setHost rest).issue_same cmd
  | .write w :: rest =>
    rw [step_write hh, step_write (h.host.trans hh)]
    exact (h.setHost rest).writeBuffer_same w
  | .read reg :: rest =>
    rw [step_read hh, step_read (h.host.trans hh)]
    exact (h.setHost rest).readReg_same reg
  | .reset :: rest =>
    rw [step_reset hh, step_reset (h.host.trans hh)]
    exact .next ⟨⟨rfl, rfl, rfl, rfl⟩, h.cfg, h.opnds, rfl, h.hostRead, rfl⟩

end

/-- Settles O23: states that differ in the working variables and the counter alone are the same to the host. -/
theorem workingVariablesAreNotObservable : Obligations.WorkingVariablesAreNotObservable := by
  intro s cmd w w' n hp
  have hsame : SameToHost s { s with inProgress := some ⟨cmd, w'⟩, freeCount := n } :=
    ⟨⟨rfl, rfl, rfl, rfl⟩, rfl, rfl, rfl, rfl, by rw [hp]; rfl⟩
  refine ⟨fun t ht => ?_, fun e he => SameAnswer.of_refused (he ▸ hsame.step_same)⟩
  obtain ⟨t', ht', hr⟩ := SameAnswer.of_next (ht ▸ hsame.step_same)
  exact ⟨t', ht', hr.response, hr.cfg, hr.opnds, hr.host, hr.hostRead, hr.cmd⟩

/-- Settles O27: both steps complete the same word with the same outcome, or refuse it, and a completion leaves nothing
of the earlier response. -/
theorem noCommandDependsOnAnEarlierCommand : Obligations.NoCommandDependsOnAnEarlierCommand := by
  intro s u r r' hin hs hu hc hhs hhu
  have ha : admits r.cmd u = admits r.cmd s := admits_congr hin.cfg (by rw [hin.opnds])
  rw [step_nil hhs, step_nil hhu, finishCommand_busy hs, finishCommand_busy hu, hc, ha, hin.cfg, hin.opnds]
  split
  · refine ⟨fun t ht => ⟨_, rfl, ?_⟩, fun e he => (nomatch he)⟩
    cases ht
    exact complete_sameResponse _ s u
  · exact ⟨fun t ht => (nomatch ht), fun e he => he⟩

end Sys2Proof.Laws
end

section
/-! SUPPORT. The layout of a stream (20_memory.md R43 to R48): a read at the place where bytes are known to stand, a run
of codes, and a record of a container, each with its converse: what lies within the stream is the bytes of what is read
there. -/
namespace Sys2Proof.Laws
open Sys2Proof.Machine

/-- What stands after the bytes before it. -/
theorem drop_known (pre d rest : Bytes) : (pre ++ d ++ rest).drop pre.length = d ++ rest := by
  rw [List.append_assoc, List.drop_left]

/-- The codes a stream holds from an offset on (R47). -/
def readCodes (input : Bytes) (off n : Nat) : List Code := (List.range n).map fun j => readU16 input (off + 2 * j)

@[simp] theorem length_readCodes (input : Bytes) (off n : Nat) : (readCodes input off n).length = n := by
  simp [readCodes]

theorem getElem?_readCodes (input : Bytes) (off : Nat) {j n : Nat} (h : j < n) :
    (readCodes input off n)[j]? = some (readU16 input (off + 2 * j)) := by
  simp [readCodes, h]

theorem readCodes_succ (input : Bytes) (off n : Nat) :
    readCodes input off (n + 1) = readU16 input off :: readCodes input (off + 2) n := by
  have hoff (j : Nat) : off + 2 * (j + 1) = off + 2 + 2 * j := by omega
  simp [readCodes, List.range_succ_eq_map, Function.comp_def, hoff]

/-- Reading the codes the stream holds. -/
theorem readCodes_of_drop {input rest : Bytes} {off : Nat} {codes : List Code}
    (h : input.drop off = codes.flatMap le16 ++ rest) : readCodes input off codes.length = codes := by
  induction codes generalizing off with
  | nil => rfl
  | cons c codes ih =>
    rw [List.flatMap_cons, List.append_assoc] at h
    rw [List.length_cons, readCodes_succ, readU16_of_drop h, ih (drop_of_drop h (length_le16 c))]

/-- Codes that lie within the stream are its bytes, two for each. -/
theorem drop_eq_readCodes {input : Bytes} {off n : Nat} (h : off + 2 * n ≤ input.length) :
    input.drop off = (readCodes input off n).flatMap le16 ++ input.drop (off + 2 * n) := by
  induction n generalizing off with
  | zero => rfl
  | succ n ih =>
    rw [readCodes_succ, List.flatMap_cons, List.append_assoc, drop_eq_readU16 (by omega), ih (by omega),
      show off + 2 + 2 * n = off + 2 * (n + 1) by omega]

/-- The record a stream holds at an offset, as the stream holds it (R47). -/
def rawAt (input : Bytes) (off : Nat) : RawRecord where
  nameTag := readTag input (off + 4)
  width := readU32 input (off + 8)
  height := readU32 input (off + 12)
  codes := readCodes input (off + 16) (readU32 input off).toNat

@[simp] theorem length_codes_rawAt (input : Bytes) (off : Nat) :
    (rawAt input off).codes.length = (readU32 input off).toNat :=
  length_readCodes ..

/-- Code `j` of the record the stream holds is the one at two bytes a code after the descriptor (R47). -/
theorem readU16_of_rawAt {input : Bytes} {off j : Nat} {c : Code} (h : (rawAt input off).codes[j]? = some c) :
    readU16 input (off + 16 + 2 * j) = c := by
  obtain ⟨hj, -⟩ := List.getElem?_eq_some_iff.mp h
  rw [length_codes_rawAt] at hj
  rw [rawAt, getElem?_readCodes _ _ hj] at h
  injection h

theorem parsed_rawAt (input : Bytes) (off : Nat) : (rawAt input off).parsed = recordAt input off := by
  simp [RawRecord.parsed, rawAt, recordAt, readCodes]

theorem length_flatMap_le16 (codes : List Code) : (codes.flatMap le16).length = 2 * codes.length := by
  induction codes with
  | nil => rfl
  | cons c codes ih =>
    rw [List.flatMap_cons, List.length_append, length_le16, ih, List.length_cons]
    omega

@[simp] theorem length_bytes (r : RawRecord) : r.bytes.length = 16 + 2 * r.codes.length := by
  simp only [RawRecord.bytes, List.length_append, length_le32, length_tagBytes, length_flatMap_le16]

/-- Reading the record the stream holds. -/
theorem rawAt_of_drop {input rest : Bytes} {off : Nat} {r : RawRecord} (h : input.drop off = r.bytes ++ rest)
    (hc : r.codes.length ≤ 0xFFFFFFFF) : rawAt input off = r := by
  simp only [RawRecord.bytes, List.append_assoc] at h
  have htag := drop_of_drop h (length_le32 _)
  have hwidth := drop_of_drop htag (length_tagBytes _)
  have hheight := drop_of_drop hwidth (length_le32 _)
  have hcodes := drop_of_drop hheight (length_le32 _)
  have hcount : (BitVec.ofNat 32 r.codes.length).toNat = r.codes.length := by
    rw [BitVec.toNat_ofNat]; omega
  rw [rawAt, readU32_of_drop h, readTag_of_drop htag, readU32_of_drop hwidth, readU32_of_drop hheight, hcount,
    readCodes_of_drop hcodes]

/-- A record that lies within the stream is its bytes. -/
theorem drop_eq_rawAt {input : Bytes} {off : Nat} (h : recordEnd input off ≤ input.length) :
    input.drop off = (rawAt input off).bytes ++ input.drop (recordEnd input off) := by
  have hend : off + 16 + 2 * (readU32 input off).toNat ≤ input.length := h
  simp only [RawRecord.bytes, rawAt, length_readCodes, BitVec.ofNat_toNat, BitVec.setWidth_eq, List.append_assoc]
  rw [drop_eq_readU32 (by omega), drop_eq_readTag (by omega), drop_eq_readU32 (by omega),
    drop_eq_readU32 (by omega), drop_eq_readCodes hend]
  rfl

/-- The record a stream holds is acceptable exactly when its dimensions are and its codes are in range (R112, R116). -/
theorem acceptable_rawAt {cfg : Config} {input : Bytes} {off : Nat} :
    (rawAt input off).acceptable cfg ↔ ¬ DimBad cfg input off ∧
      ∀ j < (readU32 input off).toNat, (readU16 input (off + 16 + 2 * j)).toNat ≤ decodeLimit cfg.decodeMax := by
  have hcount := (readU32 input off).isLt
  have hfits : (readU32 input off).toNat ≤ 0xFFFFFFFF := by omega
  simp [RawRecord.acceptable, rawAt, readCodes, hfits]

/-- The records PARSE accepts are those that lie within the stream and are acceptable. -/
theorem goodRecord_iff {cfg : Config} {input : Bytes} {off : Nat} :
    GoodRecord cfg input off ↔ recordEnd input off ≤ input.length ∧ (rawAt input off).acceptable cfg := by
  rw [acceptable_rawAt]
  constructor
  · intro h
    exact ⟨h.codesFit, h.dimOk, h.codesOk⟩
  · rintro ⟨hend, hdim, hcodes⟩
    exact ⟨by unfold recordEnd at hend; omega, hdim, hend, hcodes⟩

/-- A record the stream holds ends where its bytes do. -/
theorem recordEnd_of_drop {input rest : Bytes} {off : Nat} {r : RawRecord} (h : input.drop off = r.bytes ++ rest)
    (hc : r.codes.length ≤ 0xFFFFFFFF) : recordEnd input off = off + r.bytes.length := by
  have hcodes : (readU32 input off).toNat = r.codes.length := by rw [← length_codes_rawAt, rawAt_of_drop h hc]
  rw [recordEnd, length_bytes, hcodes, Nat.add_assoc]

/-- An acceptable record the stream holds is one PARSE accepts. -/
theorem goodRecord_of_drop {cfg : Config} {input rest : Bytes} {off : Nat} {r : RawRecord}
    (h : input.drop off = r.bytes ++ rest) (ha : r.acceptable cfg) : GoodRecord cfg input off := by
  rw [goodRecord_iff, rawAt_of_drop h ha.1, recordEnd_of_drop h ha.1]
  have hlen := congrArg List.length h
  have hbytes := length_bytes r
  rw [List.length_drop, List.length_append] at hlen
  exact ⟨by omega, ha⟩

end Sys2Proof.Laws
end

section
/-! SUPPORT. Runs of records (20_memory.md R46, R47; 42_container_decode.md R119): where the records of a container stand,
and that the walk of PARSE over good records is a run of acceptable ones. -/
namespace Sys2Proof.Laws
open Sys2Proof.Machine

/-- The records of a container stand after its five bytes of header (R46). -/
theorem drop_header (magic : Tag) (raws : List RawRecord) :
    (containerBytes magic raws).drop 5 = raws.flatMap RawRecord.bytes := rfl

/-- The magic stands at offset 0 (R46). -/
theorem readTag_container (magic : Tag) (raws : List RawRecord) : readTag (containerBytes magic raws) 0 = magic :=
  readTag_of_drop (rest := BitVec.ofNat 8 raws.length :: raws.flatMap RawRecord.bytes) rfl

/-- The count stands at offset 4 (R46). -/
theorem readU8_container (magic : Tag) (raws : List RawRecord) :
    readU8 (containerBytes magic raws) 4 = BitVec.ofNat 8 raws.length :=
  readU8_of_drop (rest := raws.flatMap RawRecord.bytes) rfl

/-- What stands after the bytes of the first `k` records of a run. -/
theorem drop_flatMap_bytes (raws : List RawRecord) (k : Nat) :
    (raws.flatMap RawRecord.bytes).drop ((raws.take k).map fun r => 16 + 2 * r.codes.length).sum =
      (raws.drop k).flatMap RawRecord.bytes := by
  induction raws generalizing k with
  | nil => rw [List.drop_nil, List.flatMap_nil, List.drop_nil]
  | cons r raws ih =>
    cases k with
    | zero => rfl
    | succ k =>
      rw [List.take_succ_cons, List.map_cons, List.sum_cons, List.flatMap_cons, ← List.drop_drop,
        List.drop_left' (length_bytes r), ih, List.drop_succ_cons]

/-- Record `k` of a container stands at its offset `R_k` (R47). -/
theorem drop_recordOffset (magic : Tag) {raws : List RawRecord} {k : Nat} {r : RawRecord} (hk : raws[k]? = some r) :
    (containerBytes magic raws).drop (recordOffset raws k) = r.bytes ++ (raws.drop (k + 1)).flatMap RawRecord.bytes := by
  obtain ⟨hlt, rfl⟩ := List.getElem?_eq_some_iff.mp hk
  rw [recordOffset, ← List.drop_drop, drop_header, drop_flatMap_bytes, List.drop_eq_getElem_cons hlt,
    List.flatMap_cons]

/-- A run of acceptable records the stream holds is a walk of PARSE over good ones, which delivers them. -/
theorem goodRecords_of_drop {cfg : Config} {input rest : Bytes} {off : Nat} {raws : List RawRecord}
    (h : input.drop off = raws.flatMap RawRecord.bytes ++ rest) (ha : ∀ r ∈ raws, r.acceptable cfg) :
    ∃ last, GoodRecords cfg input raws.length off (raws.map RawRecord.parsed) last := by
  induction raws generalizing off with
  | nil => exact ⟨off, rfl, rfl⟩
  | cons r raws ih =>
    obtain ⟨hr, hraws⟩ := List.forall_mem_cons.mp ha
    rw [List.flatMap_cons, List.append_assoc] at h
    obtain ⟨last, hlast⟩ := ih (drop_of_drop h rfl) hraws
    refine ⟨last, goodRecord_of_drop h hr, raws.map RawRecord.parsed, ?_, ?_⟩
    · rw [← parsed_rawAt, rawAt_of_drop h hr.1, List.map_cons]
    · rwa [recordEnd_of_drop h hr.1]

/-- What PARSE walks over is a run of acceptable records the stream holds. -/
theorem goodRecords_eq_raws {cfg : Config} {input : Bytes} {m off last : Nat} {recs : List Record}
    (h : GoodRecords cfg input m off recs last) :
    ∃ raws : List RawRecord, raws.length = m ∧ (∀ r ∈ raws, r.acceptable cfg) ∧
      input.drop off = raws.flatMap RawRecord.bytes ++ input.drop last ∧ recs = raws.map RawRecord.parsed := by
  induction m generalizing off recs with
  | zero =>
    obtain ⟨rfl, rfl⟩ := h
    exact ⟨[], rfl, by simp, rfl, rfl⟩
  | succ m ih =>
    obtain ⟨hg, rest, rfl, hr⟩ := h
    obtain ⟨raws, hlen, ha, hdrop, rfl⟩ := ih hr
    obtain ⟨hend, hok⟩ := goodRecord_iff.mp hg
    refine ⟨rawAt input off :: raws, by rw [List.length_cons, hlen], List.forall_mem_cons.mpr ⟨hok, ha⟩, ?_, ?_⟩
    · rw [drop_eq_rawAt hend, hdrop, List.flatMap_cons, List.append_assoc]
    · rw [List.map_cons, parsed_rawAt]

/-- PARSE accepts every container of acceptable records, whatever stands after it (R119, R122). -/
theorem parse_container {cfg : Config} {raws : List RawRecord} (trailing : Bytes) (hl : raws.length ≤ 255)
    (ha : ∀ r ∈ raws, r.acceptable cfg) :
    parse cfg (containerBytes cfg.magic raws ++ trailing) = .ok (raws.map RawRecord.parsed) := by
  have hstream : containerBytes cfg.magic raws ++ trailing =
      tagBytes cfg.magic ++ BitVec.ofNat 8 raws.length :: (raws.flatMap RawRecord.bytes ++ trailing) := by
    simp [containerBytes]
  have hcount : (BitVec.ofNat 8 raws.length).toNat = raws.length := by
    rw [BitVec.toNat_ofNat]; omega
  have hrecords : (containerBytes cfg.magic raws ++ trailing).drop 5 = raws.flatMap RawRecord.bytes ++ trailing := rfl
  obtain ⟨last, hgood⟩ := goodRecords_of_drop hrecords ha
  exact parse_eq_ok.mpr ⟨_, _, last, hstream, by rwa [hcount]⟩

/-- PARSE accepts nothing but containers of acceptable records, with any bytes after them (R110 to R119). -/
theorem container_of_parse {cfg : Config} {input : Bytes} {recs : List Record} (h : parse cfg input = .ok recs) :
    ∃ raws trailing, raws.length ≤ 255 ∧ (∀ r ∈ raws, RawRecord.acceptable cfg r) ∧
      input = containerBytes cfg.magic raws ++ trailing ∧ recs = raws.map RawRecord.parsed := by
  obtain ⟨n, rest, last, rfl, hgood⟩ := parse_eq_ok.mp h
  obtain ⟨raws, hlen, ha, hdrop, hrecs⟩ := goodRecords_eq_raws hgood
  refine ⟨raws, (tagBytes cfg.magic ++ n :: rest).drop last, by have := n.isLt; omega, ha, ?_, hrecs⟩
  have hcount : BitVec.ofNat 8 raws.length = n := by rw [hlen, BitVec.ofNat_toNat, BitVec.setWidth_eq]
  have hrest : rest = raws.flatMap RawRecord.bytes ++ (tagBytes cfg.magic ++ n :: rest).drop last := hdrop
  rw [containerBytes, hcount, List.append_assoc, ← hrest, List.append_assoc]
  rfl

end Sys2Proof.Laws
end

section
/-! SUPPORT. What BUILD delivers is a container in the grammar of 20_memory.md R46 and R47: the record of each image holds
its tag, its dimensions and the codes of its pixels (41_container_encode.md R99). -/
namespace Sys2Proof.Laws
open Sys2Proof.Machine

/-- The tag of a name: its first four characters, padded (R90). -/
def nameTagOf (name : List Char) : Tag := ⟨tagChar name 0, tagChar name 1, tagChar name 2, tagChar name 3⟩

/-- TAG answers this tag or an error. -/
theorem tagOf_eq_nameTagOf {name : List Char} {idx : BitVec 16} {t : Tag} (h : tagOf name idx = .ok t) :
    t = nameTagOf name := by
  unfold tagOf at h
  split at h
  · injection h with h; exact h.symm
  · cases h

/-- The record of an image as a stream holds it. -/
def imageRaw (im : Image) : RawRecord where
  nameTag := nameTagOf im.name
  width := im.width
  height := im.height
  codes := im.pixels.map qenc

@[simp] theorem length_codes_imageRaw (im : Image) : (imageRaw im).codes.length = im.pixels.length :=
  List.length_map ..

theorem getElem?_codes_imageRaw (im : Image) (j : Nat) : (imageRaw im).codes[j]? = im.pixels[j]?.map qenc :=
  List.getElem?_map ..

/-- The tag of a good image holds the stored name (R90). -/
theorem tagBytes_nameTagOf {im : Image} (h : imageError im = none) :
    tagBytes (nameTagOf im.name) = storedName im.name := by
  obtain ⟨-, -, hascii⟩ := imageError_eq_none.mp h
  obtain ⟨t, ht, hb⟩ := tagOf_ascii noIndex hascii
  rwa [← tagOf_eq_nameTagOf ht]

/-- The bytes BUILD writes for a good image are those of its record. -/
theorem bytes_imageRaw {im : Image} (h : imageError im = none) : (imageRaw im).bytes = imageBytes im := by
  obtain ⟨-, hcount, -⟩ := imageError_eq_none.mp h
  simp [RawRecord.bytes, imageRaw, imageBytes, hcount, tagBytes_nameTagOf h, List.flatMap_map]

/-- BUILD answers the container of its images' records, and only for at most 255 good images. -/
theorem container_of_build {cfg : Config} {images : List Image} {rom : Bytes} (h : build cfg images = .ok rom) :
    images.length ≤ 255 ∧ (∀ im ∈ images, imageError im = none) ∧
      rom = containerBytes cfg.magic (images.map imageRaw) := by
  obtain ⟨hl, hgood, rfl⟩ := build_eq_ok h
  have hbytes : images.flatMap imageBytes = images.flatMap fun im => (imageRaw im).bytes := by
    rw [List.flatMap_def, List.flatMap_def, List.map_congr_left fun im him => bytes_imageRaw (hgood im him)]
  refine ⟨hl, hgood, ?_⟩
  rw [containerBytes, List.length_map, List.flatMap_map, hbytes]

/-- The offset of record `k` in the container of some images (R47). -/
theorem recordOffset_imageRaw (images : List Image) (k : Nat) :
    recordOffset (images.map imageRaw) k = 5 + ((images.take k).map fun im => 16 + 2 * im.pixels.length).sum := by
  simp [recordOffset, ← List.map_take, Function.comp_def]

end Sys2Proof.Laws
end

section
/-! The container and the input stream (20_memory.md R41 to R52): the layout of what BUILD delivers, the grammar PARSE
accepts, and that only the host writes a buffer. -/
namespace Sys2Proof.Laws
open Sys2Proof.Machine

/-- A pixel of a grid lies within it (R48). -/
theorem gridIndex_lt {w h x y : Nat} (hx : x < w) (hy : y < h) : gridIndex w x y < w * h := by
  calc y * w + x < (y + 1) * w := by rw [Nat.succ_mul]; omega
    _ ≤ h * w := Nat.mul_le_mul_right w hy
    _ = w * h := Nat.mul_comm h w

/-- A pixel of a record that is a grid is the one at its index (R123). -/
theorem pixelAt_of_grid {r : Record} {x y : Nat} (hg : r.pixels.length = r.width.toNat * r.height.toNat)
    (hx : x < r.width.toNat) (hy : y < r.height.toNat) :
    pixelAt r x y = r.pixels[gridIndex r.width.toNat x y]? :=
  if_pos ⟨hg, hx, hy⟩

/-- The payload a command leaves is its outcome (R30). -/
theorem perform_of_payload {i : Instr} {s t : State} {v : Payload} (h : exec i s = .next t)
    (hv : t.payload = some v) : perform s.cfg i = .ok v := by
  obtain ⟨-, rfl⟩ := exec_next h
  cases ho : perform s.cfg i with
  | error e => rw [ho] at hv; cases hv
  | ok w => rw [ho] at hv; injection hv with hv; rw [hv]

/-- A container in the response of BUILD is what `build` answers. -/
theorem build_of_payload {images : List Image} {s t : State} {rom : Bytes} (h : exec (.build images) s = .next t)
    (hv : t.payload = some (.rom rom)) : build s.cfg images = .ok rom := by
  obtain ⟨rom', hb, he⟩ := exceptMap_eq_ok (perform_of_payload h hv)
  injection he with he
  rw [hb, he]

/-- Records in the response of PARSE are what `parse` answers. -/
theorem parse_of_payload {input : Bytes} {s t : State} {recs : List Record} (h : exec (.parse input) s = .next t)
    (hv : t.payload = some (.records recs)) : parse s.cfg input = .ok recs := by
  obtain ⟨recs', hp, he⟩ := exceptMap_eq_ok (perform_of_payload h hv)
  injection he with he
  rw [hp, he]

/-- The block goes on without writing a buffer of the host (R41). -/
theorem finishCommand_opnds {s t : State} (h : finishCommand s = .next t) : t.opnds = s.opnds := by
  rcases finishCommand_stays_or_completes h with ⟨-, rfl⟩ | ⟨-, o, rfl⟩
  · rfl
  · exact complete_opnds o s

/-- A step that is no host write leaves every buffer as it is (R41, R52). -/
theorem step_opnds {s t : State} (h : step s = .next t) (hw : ∀ w rest, s.host ≠ .write w :: rest) :
    t.opnds = s.opnds := by
  rcases step_next h with ⟨-, hf⟩ | ⟨rest, -, hf⟩ | ⟨cmd, rest, -, -, -, rfl⟩ | ⟨w, rest, hh, -, -⟩ |
    ⟨reg, rest, v, -, -, rfl⟩ | ⟨rest, -, rfl⟩
  · exact finishCommand_opnds hf
  · exact (finishCommand_opnds hf :)
  · exact startCommand_opnds cmd _
  · exact absurd hh (hw w rest)
  · exact passTime_opnds _
  · exact resetBlock_opnds _

/-- Settles O21: the buffers are unchanged, so every read of the stream in them is. -/
theorem theBlockNeverWritesAHostBuffer : Obligations.TheBlockNeverWritesAHostBuffer := by
  intro s t h hw
  have ho := step_opnds h hw
  exact ⟨ho, fun addr n => by rw [ho]⟩

/-- Settles O41: the lengths of the records, after a header of five bytes. -/
theorem containerLengthIsTheSumOfItsRecords : Obligations.ContainerLengthIsTheSumOfItsRecords := by
  intro images s t rom h hv
  obtain ⟨-, -, rfl⟩ := build_eq_ok (build_of_payload h hv)
  simp only [List.length_append, length_tagBytes, List.length_singleton, List.length_flatMap, length_imageBytes]

/-- Settles O42: the container holds record `k` at its offset, so a read there gives the record back. -/
theorem containerFieldsStandAtTheirOffsets : Obligations.ContainerFieldsStandAtTheirOffsets := by
  intro images s t rom h hv
  obtain ⟨hl, hgood, rfl⟩ := container_of_build (build_of_payload h hv)
  refine ⟨readTag_container _ _, ?_, fun k im hk => ?_⟩
  · rw [readU8_container, List.length_map, BitVec.toNat_ofNat]
    omega
  · have him := hgood im (List.mem_of_getElem? hk)
    obtain ⟨hfit, hcount, -⟩ := imageError_eq_none.mp him
    have hraw : (images.map imageRaw)[k]? = some (imageRaw im) := by rw [List.getElem?_map, hk]; rfl
    have hread := rawAt_of_drop (drop_recordOffset s.cfg.magic hraw) (by rw [length_codes_imageRaw]; omega)
    refine ⟨_, recordOffset_imageRaw images k, ?_, ?_, congrArg RawRecord.width hread,
      congrArg RawRecord.height hread, fun x y hx hy => ?_⟩
    · rw [← length_codes_rawAt, hread, length_codes_imageRaw]
    · rw [← tagBytes_nameTagOf him]
      exact congrArg (tagBytes ∘ RawRecord.nameTag) hread
    · have hj : gridIndex im.width.toNat x y < im.pixels.length := hcount ▸ gridIndex_lt hx hy
      have hp := List.getElem?_eq_getElem hj
      refine ⟨_, hp, readU16_of_rawAt (j := gridIndex im.width.toNat x y) ?_⟩
      rw [hread, getElem?_codes_imageRaw, hp]
      rfl

/-- Settles O43: any two or four bytes are those `le16` or `le32` writes of the value they make. -/
theorem fieldsAreLittleEndianAtEveryOffset : Obligations.FieldsAreLittleEndianAtEveryOffset := by
  refine ⟨fun pre rest b0 b1 => ?_, fun pre rest b0 b1 b2 b3 => ?_, fun _ => rfl, fun _ => rfl,
    fun pre rest v => readU16_of_drop (drop_known ..), fun pre rest v => readU32_of_drop (drop_known ..)⟩
  · rw [← le16_leNat b0 b1, readU16_of_drop (drop_known ..), BitVec.toNat_ofNat]
    simp only [leNat]
    omega
  · rw [← le32_leNat b0 b1 b2 b3, readU32_of_drop (drop_known ..), BitVec.toNat_ofNat]
    simp only [leNat]
    omega

/-- Settles O51, by the acceptance of every container. -/
theorem parseDeliversEveryContainer : Obligations.ParseDeliversEveryContainer := by
  refine ⟨decode_parse, fun raws trailing s hl ha hin => ?_⟩
  have hp : perform s.cfg (.parse (containerBytes s.cfg.magic raws ++ trailing)) =
      .ok (.records (raws.map RawRecord.parsed)) :=
    congrArg (Except.map Payload.records) (parse_container trailing hl ha)
  refine ⟨_, exec_of_wellFormed hin, ?_⟩
  rw [hp]
  exact completesOk_completeOk _ s

/-- Settles O52: what PARSE accepts is a container, by induction over the records it walks. -/
theorem parseAcceptsOnlyContainers : Obligations.ParseAcceptsOnlyContainers :=
  fun _ _ _ _ h hv => container_of_parse (parse_of_payload h hv)

/-- Settles O53: with the check on, every record of the container PARSE accepted has as many codes as its grid. -/
theorem deliveredRecordsAreGrids : Obligations.DeliveredRecordsAreGrids := by
  refine ⟨fun input s t recs h hv hd => ?_, fun r x y hg hx hy => ?_, fun r x y hn => if_neg fun h => hn h.1⟩
  · obtain ⟨raws, -, -, ha, -, rfl⟩ := parseAcceptsOnlyContainers input s t recs h hv
    refine List.forall_mem_map.mpr fun r hr => ?_
    obtain ⟨-, hdim, -⟩ := ha r hr
    simpa [RawRecord.parsed] using hdim hd
  · have hlt : gridIndex r.width.toNat x y < r.pixels.length := hg ▸ gridIndex_lt hx hy
    exact ⟨_, (pixelAt_of_grid hg hx hy).trans (List.getElem?_eq_getElem hlt), List.getElem?_eq_getElem hlt⟩

end Sys2Proof.Laws
end

section
/-! What the decoder makes of every command word (30_encoding.md R60 to R63): which words select no command and why, that a
word and buffers that select one hold it, and how a rejected word completes. -/
namespace Sys2Proof.Laws
open Sys2Proof.Machine

/-- The reserved bits are the high digit of the word (R60). -/
theorem cmdRsv_eq_zero_iff (cmd : Byte) : cmdRsv cmd = 0#4 ↔ cmd.toNat / 16 = 0 := by
  revert cmd; decide

/-- `OP` is the low digit of the word (R60). -/
theorem toNat_cmdOp (cmd : Byte) : (cmdOp cmd).toNat = cmd.toNat % 16 := by
  revert cmd; decide

/-- `RSV` is tested first, and `OP` is then not looked at (R61). -/
theorem decode_of_rsv_ne {cmd : Byte} (h : cmdRsv cmd ≠ 0#4) (o : OperandRecord) :
    decode cmd o = .error .reservedBits := by
  rw [decode, if_pos h]

/-- With `RSV` good, the `OP` value selects the command or there is none (R61). -/
theorem decode_of_rsv_zero {cmd : Byte} (h : cmdRsv cmd = 0#4) (o : OperandRecord) :
    decode cmd o = (decodeOp (cmdOp cmd) o).elim (.error .reservedOp) .ok := by
  rw [decode, if_neg (not_not_intro h)]
  cases decodeOp (cmdOp cmd) o <;> rfl

/-- The `OP` values that select no command are the four reserved ones, whatever the buffers hold (R62). -/
theorem decodeOp_eq_none_iff (op : BitVec 4) (o : OperandRecord) :
    decodeOp op o = none ↔ op.toNat ∈ [0x0, 0xD, 0xE, 0xF] := by
  have hlt := op.isLt
  unfold decodeOp
  split <;> simp only [reduceCtorEq, true_iff, false_iff, imp_false, List.mem_cons, List.not_mem_nil, or_false] at * <;>
    omega

/-- A command holds its operands as the buffers had them, so placing them there again changes nothing (R63). -/
theorem placeOperands_of_decodeOp {op : BitVec 4} {o : OperandRecord} {i : Instr} (h : decodeOp op o = some i) :
    placeOperands i o = o := by
  unfold decodeOp at h
  split at h <;> cases h <;> rfl

/-- A word that decodes to a command has good reserved bits and an `OP` value that selects it. -/
theorem decodeOp_of_decode {cmd : Byte} {o : OperandRecord} {i : Instr} (h : decode cmd o = .ok i) :
    cmdRsv cmd = 0#4 ∧ decodeOp (cmdOp cmd) o = some i := by
  by_cases hr : cmdRsv cmd = 0#4
  · rw [decode_of_rsv_zero hr] at h
    cases hd : decodeOp (cmdOp cmd) o with
    | none => rw [hd] at h; cases h
    | some j => rw [hd] at h; cases h; exact ⟨hr, rfl⟩
  · rw [decode_of_rsv_ne hr] at h; cases h

/-- A rejected word in progress completes with IllegalCommand, without index or offset (R61). -/
theorem finishCommand_rejected {s : State} {r : Running} {why : DecodeReject} (h : s.inProgress = some r)
    (hd : decode r.cmd s.opnds = .error why) :
    ∃ t, finishCommand s = .next t ∧
      CompletesErr s t (statusErr (rejectReason why)) 0xFFFF#16 0xFFFFFFFFFFFFFFFF#64 :=
  ⟨rejectCommand why s, by simp only [finishCommand, h, fetch, hd], completesErr_raiseError _ s⟩

/-- Settles O8: the two tests of a word in their order, and the completion of a word that fails one. -/
theorem illegalCommandWordsAreRejected : Obligations.IllegalCommandWordsAreRejected := by
  refine ⟨fun cmd o hr => ?_, fun cmd o hr hop => ?_, fun cmd o hr hop => ?_, fun s r hp hh hd => ?_,
    fun s r hp hh hd => ?_⟩
  · exact decode_of_rsv_ne (mt (cmdRsv_eq_zero_iff cmd).mp hr) o
  · rw [← toNat_cmdOp, ← decodeOp_eq_none_iff _ o] at hop
    rw [decode_of_rsv_zero ((cmdRsv_eq_zero_iff cmd).mpr hr), hop]
    rfl
  · rw [← toNat_cmdOp, ← decodeOp_eq_none_iff _ o, ← ne_eq, Option.ne_none_iff_exists'] at hop
    obtain ⟨i, hi⟩ := hop
    have hd : decode cmd o = .ok i := by
      rw [decode_of_rsv_zero ((cmdRsv_eq_zero_iff cmd).mpr hr), hi]
      rfl
    exact ⟨i, hd, encodeWord_of_decode hd⟩
  · rw [step_nil hh]
    exact finishCommand_rejected hp hd
  · rw [step_nil hh]
    exact finishCommand_rejected hp hd

/-- Settles O10: the word is the command's own, and its operands were taken whole from the buffers. -/
theorem decodedCommandEncodesBack : Obligations.DecodedCommandEncodesBack := by
  intro cmd o i h
  exact ⟨encodeWord_of_decode h, placeOperands_of_decodeOp (decodeOp_of_decode h).2⟩

/-- Settles O7: one equation per command byte, and the reserved `OP` values select none (R62). -/
theorem commandBytesSelectTheirCommands : Obligations.CommandBytesSelectTheirCommands := by
  intro o
  exact ⟨decode_qenc o, decode_qdec o, decode_tag o, decode_hpack o, decode_dpack o, decode_ppack o, decode_build o,
    decode_hunpack o, decode_dunpack o, decode_untag o, decode_punpack o, decode_parse o, rfl, rfl, rfl, rfl⟩

end Sys2Proof.Laws
end

section
/-! The word `STATUS` (30_encoding.md R66): its encoding, and its value while a command is in progress and after every
step. A fact about every word or every four fields is decided over the 256 of them. -/
namespace Sys2Proof.Laws
open Sys2Proof.Machine

/-- The weights of the four fields (R66). -/
theorem toNat_packStatus (reason : BitVec 4) (busy done : Bool) (kind : BitVec 2) :
    (packStatus reason busy done kind).toNat =
      reason.toNat * 16 + busy.toNat * 8 + done.toNat * 4 + kind.toNat := by
  revert reason busy done kind; decide

@[simp] theorem statusReason_packStatus (reason : BitVec 4) (busy done : Bool) (kind : BitVec 2) :
    statusReason (packStatus reason busy done kind) = reason := by
  revert reason busy done kind; decide

@[simp] theorem statusBusy_packStatus (reason : BitVec 4) (busy done : Bool) (kind : BitVec 2) :
    statusBusy (packStatus reason busy done kind) = busy := by
  revert reason busy done kind; decide

@[simp] theorem statusDone_packStatus (reason : BitVec 4) (busy done : Bool) (kind : BitVec 2) :
    statusDone (packStatus reason busy done kind) = done := by
  revert reason busy done kind; decide

@[simp] theorem statusKind_packStatus (reason : BitVec 4) (busy done : Bool) (kind : BitVec 2) :
    statusKind (packStatus reason busy done kind) = kind := by
  revert reason busy done kind; decide

/-- A word is its four fields. -/
theorem packStatus_fields (st : Byte) :
    packStatus (statusReason st) (statusBusy st) (statusDone st) (statusKind st) = st := by
  revert st; decide

/-- A completion leaves a value of the table (R66). -/
@[simp] theorem statusLegal_complete (o : Except CmdError Payload) (s : State) :
    statusLegal (complete o s).status = true := by
  cases o with
  | ok v => exact statusLegal_statusOk
  | error e => exact statusLegal_statusErr e.reason

/-- Going on leaves `STATUS` in the table of R66. -/
theorem finishCommand_statusLegal {s t : State} (hl : statusLegal s.status = true) (h : finishCommand s = .next t) :
    statusLegal t.status = true := by
  rcases finishCommand_stays_or_completes h with ⟨-, rfl⟩ | ⟨-, o, rfl⟩
  · exact hl
  · exact statusLegal_complete o s

/-- Every step leaves `STATUS` in the table of R66. -/
theorem step_statusLegal {s t : State} (hl : statusLegal s.status = true) (h : step s = .next t) :
    statusLegal t.status = true := by
  rcases step_next h with ⟨-, hf⟩ | ⟨rest, -, hf⟩ | ⟨cmd, rest, -, -, -, rfl⟩ | ⟨w, rest, -, -, rfl⟩ |
    ⟨reg, rest, v, -, -, rfl⟩ | ⟨rest, -, rfl⟩
  · exact finishCommand_statusLegal hl hf
  · exact finishCommand_statusLegal (s := { s with host := rest }) hl hf
  · exact statusLegal_statusAtIssue hl
  · rwa [passTime_status]
  · rwa [passTime_status]
  · exact statusLegal_zero

/-- After the block has gone on, no command is in progress. -/
theorem finishCommand_inProgress {s t : State} (h : finishCommand s = .next t) : t.inProgress = none := by
  rcases finishCommand_stays_or_completes h with ⟨hp, rfl⟩ | ⟨-, o, rfl⟩
  · exact hp
  · exact complete_inProgress o s

/-- A step from a busy state that leaves a command in progress leaves `STATUS` as it is (R66): it is a host read or
write, since every other action completes the command or abandons it. -/
theorem step_status_of_busy {s t : State} (hb : statusBusy s.status = true) (h : step s = .next t)
    (ht : t.inProgress.isSome = true) : t.status = s.status := by
  have hne : t.inProgress ≠ none := Option.isSome_iff_ne_none.mp ht
  rcases step_next h with ⟨-, hf⟩ | ⟨rest, -, hf⟩ | ⟨cmd, rest, -, hb', -, -⟩ | ⟨w, rest, -, -, rfl⟩ |
    ⟨reg, rest, v, -, -, rfl⟩ | ⟨rest, -, rfl⟩
  · exact absurd (finishCommand_inProgress hf) hne
  · exact absurd (finishCommand_inProgress hf) hne
  · exact nomatch hb.symm.trans hb'
  · exact passTime_status _
  · exact passTime_status _
  · exact absurd (resetBlock_inProgress _) hne

/-- An issue that is taken starts the command (R30). -/
theorem step_issue_admitted {s : State} {cmd : Byte} {rest : List HostAction} (hh : s.host = .issue cmd :: rest)
    (hb : statusBusy s.status = false) (ha : admits cmd s = true) :
    step s = .next (startCommand cmd { s with host := rest }) := by
  rw [step_issue_idle hh hb]
  exact if_pos ha

/-- Settles O13: the encoding and the table's values by computation, and what each step leaves in the word. -/
theorem statusWordIsEncodedAsTheTableSays : Obligations.StatusWordIsEncodedAsTheTableSays := by
  refine ⟨toNat_packStatus, fun reason busy done kind => ?_, packStatus_fields, rfl, rfl, rfl, rfl, rfl, rfl, rfl, rfl,
    rfl, rfl, rfl, rfl, rfl, rfl, fun s cmd rest hh hb ha => ?_, fun s t _ hb h ht => step_status_of_busy hb h ht,
    fun s t => step_statusLegal⟩
  · exact ⟨statusReason_packStatus .., statusBusy_packStatus .., statusDone_packStatus .., statusKind_packStatus ..⟩
  · exact ⟨_, step_issue_admitted hh hb ha, rfl, statusAtIssue_eq_or s.status⟩

end Sys2Proof.Laws
end

section
/-! The assembler (30_encoding.md R73): what a number, a pixel tuple, an image tuple, a byte string and a tag stand for,
the command of a line of each mnemonic, and the host actions a line becomes. -/
namespace Sys2Proof.Laws
open Sys2Proof.Machine

/-! ### Operands -/

/-- The number of a value that fits its port is that value (R63). -/
@[simp] theorem asmPort_toNat {w : Nat} (v : BitVec w) : asmPort w v.toNat = some v := by
  rw [asmPort, if_pos v.isLt, BitVec.ofNat_toNat, BitVec.setWidth_eq]

/-- The tuple a line has for a pixel. -/
def pixelForm (p : Pixel) : AsmPixel := ⟨p.r.toNat, p.g.toNat, p.b.toNat, p.a.toNat⟩

/-- The tuple a line has for an image. -/
def imageForm (im : Image) : AsmImage := ⟨im.name, im.width.toNat, im.height.toNat, im.pixels.map pixelForm⟩

/-- Reading a list of written items gives the list back when reading one gives the item back. -/
theorem mapM_map_of_forall {α β : Type} {f : β → Option α} {g : α → β} (h : ∀ a, f (g a) = some a) (l : List α) :
    (l.map g).mapM f = some l := by
  have hfg : f ∘ g = pure := funext h
  rw [List.mapM_map, hfg, List.mapM_pure, List.map_id']
  rfl

theorem asmPixel_pixelForm (p : Pixel) : asmPixel (pixelForm p) = some p := by
  simp [asmPixel, pixelForm]

theorem asmImage_imageForm (im : Image) : asmImage (imageForm im) = some im := by
  simp [asmImage, imageForm, mapM_map_of_forall asmPixel_pixelForm]

/-- Hex bytes stand for themselves. -/
@[simp] theorem asmBytes_hex (env : AsmEnv) (b : Bytes) : asmBytes env (b.map .hex) = b := by
  induction b with
  | nil => rfl
  | cons x rest ih => exact congrArg (x :: ·) ih

/-- A byte string of hex bytes stands for those bytes. -/
theorem asmStream_hex (env : AsmEnv) (b : Bytes) : asmStream env (.byteString (b.map .hex)) = some b :=
  congrArg some (asmBytes_hex env b)

/-- An operand that stands for four bytes stands for the tag they are. -/
theorem asmTag_of_stream {env : AsmEnv} {x : AsmOperand} {t : Tag} (h : asmStream env x = some (tagBytes t)) :
    asmTag env x = some t := by
  simp [asmTag, h, tagBytes]

/-! ### The command of a line -/

section
variable {env : AsmEnv}

theorem asmCommand_qenc (r g b a : Byte) :
    asmCommand env .qenc [.number r.toNat, .number g.toNat, .number b.toNat, .number a.toNat] =
      some (.qenc r g b a) := by
  simp [asmCommand]

theorem asmCommand_qdec (code : Code) : asmCommand env .qdec [.number code.toNat] = some (.qdec code) := by
  simp [asmCommand]

theorem asmCommand_dpack (w h : U32) (n : Nat) {x : AsmOperand} {t : Tag}
    (hx : asmStream env x = some (tagBytes t)) :
    asmCommand env .dpack [.number w.toNat, .number h.toNat, .number n, x] = some (.dpack w h n t) := by
  simp [asmCommand, asmTag_of_stream hx]

theorem asmCommand_ppack (px : List Pixel) :
    asmCommand env .ppack [.pixels (px.map pixelForm)] = some (.ppack px) := by
  simp [asmCommand, mapM_map_of_forall asmPixel_pixelForm]

theorem asmCommand_build (ims : List Image) :
    asmCommand env .build [.images (ims.map imageForm)] = some (.build ims) := by
  simp [asmCommand, mapM_map_of_forall asmImage_imageForm]

theorem asmCommand_hunpack {x : AsmOperand} {input : Bytes} (hx : asmStream env x = some input) :
    asmCommand env .hunpack [x] = some (.hunpack input) := by
  simp [asmCommand, hx]

theorem asmCommand_dunpack {x : AsmOperand} {input : Bytes} (off : Nat) (hx : asmStream env x = some input) :
    asmCommand env .dunpack [x, .number off] = some (.dunpack input off) := by
  simp [asmCommand, hx]

theorem asmCommand_untag {x : AsmOperand} {t : Tag} (hx : asmStream env x = some (tagBytes t)) :
    asmCommand env .untag [x] = some (.untag t) := by
  simp [asmCommand, asmTag_of_stream hx]

theorem asmCommand_punpack {x : AsmOperand} {input : Bytes} (off n : Nat) (hx : asmStream env x = some input) :
    asmCommand env .punpack [x, .number off, .number n] = some (.punpack input off n) := by
  simp [asmCommand, hx]

theorem asmCommand_parse {x : AsmOperand} {input : Bytes} (hx : asmStream env x = some input) :
    asmCommand env .parse [x] = some (.parse input) := by
  simp [asmCommand, hx]

end

/-- Every command has a line: its mnemonic with its operands written out (R73). -/
theorem exists_asmCommand (env : AsmEnv) (i : Instr) : ∃ m operands, asmCommand env m operands = some i := by
  cases i with
  | qenc r g b a => exact ⟨_, _, asmCommand_qenc r g b a⟩
  | qdec code => exact ⟨_, _, asmCommand_qdec code⟩
  | tag name => exact ⟨.tag, [.string name], rfl⟩
  | hpack count => exact ⟨.hpack, [.number count], rfl⟩
  | dpack w h n t => exact ⟨_, _, asmCommand_dpack w h n (asmStream_hex env (tagBytes t))⟩
  | ppack px => exact ⟨_, _, asmCommand_ppack px⟩
  | build ims => exact ⟨_, _, asmCommand_build ims⟩
  | hunpack input => exact ⟨_, _, asmCommand_hunpack (asmStream_hex env input)⟩
  | dunpack input off => exact ⟨_, _, asmCommand_dunpack off (asmStream_hex env input)⟩
  | untag t => exact ⟨_, _, asmCommand_untag (asmStream_hex env (tagBytes t))⟩
  | punpack input off n => exact ⟨_, _, asmCommand_punpack off n (asmStream_hex env input)⟩
  | parse input => exact ⟨_, _, asmCommand_parse (asmStream_hex env input)⟩

/-! ### The host actions of a line -/

/-- What the host does for a command: the writes of its operands, then its command byte (R73). -/
def commandActions (i : Instr) : List HostAction := (operandWrites i).map .write ++ [.issue (encodeWord i)]

/-- A line becomes the host actions of its command, and a line without a command none. -/
theorem assemble_eq_map (env : AsmEnv) (m : Mnemonic) (operands : List AsmOperand) :
    assemble env m operands = (asmCommand env m operands).map commandActions := by
  rw [assemble]
  cases asmCommand env m operands <;> rfl

theorem assemble_of_asmCommand {env : AsmEnv} {m : Mnemonic} {operands : List AsmOperand} {i : Instr}
    (h : asmCommand env m operands = some i) : assemble env m operands = some (commandActions i) := by
  rw [assemble_eq_map, h]
  rfl

/-- Settles O12: a line's actions are those of its command, and the line of each mnemonic makes its command. -/
theorem assembledLineIssuesItsCommand : Obligations.AssembledLineIssuesItsCommand := by
  refine ⟨fun env m operands actions h => ?_, fun env i => ?_,
    fun _ r g b a => assemble_of_asmCommand (asmCommand_qenc r g b a),
    fun _ code => assemble_of_asmCommand (asmCommand_qdec code), fun _ _ => rfl, fun _ _ => rfl,
    fun _ w h n x t0 t1 t2 t3 hx => assemble_of_asmCommand (asmCommand_dpack w h n (t := ⟨t0, t1, t2, t3⟩) hx),
    fun _ px => assemble_of_asmCommand (asmCommand_ppack px),
    fun _ ims => assemble_of_asmCommand (asmCommand_build ims),
    fun _ _ _ hx => assemble_of_asmCommand (asmCommand_hunpack hx),
    fun _ _ _ off hx => assemble_of_asmCommand (asmCommand_dunpack off hx),
    fun _ x t0 t1 t2 t3 hx => assemble_of_asmCommand (asmCommand_untag (t := ⟨t0, t1, t2, t3⟩) hx),
    fun _ _ _ off n hx => assemble_of_asmCommand (asmCommand_punpack off n hx),
    fun _ _ _ hx => assemble_of_asmCommand (asmCommand_parse hx)⟩
  · rw [assemble_eq_map, Option.map_eq_some_iff] at h
    obtain ⟨i, hi, rfl⟩ := h
    exact ⟨i, hi, rfl, encodedCommandDecodesToItself i⟩
  · obtain ⟨m, operands, hi⟩ := exists_asmCommand env i
    exact ⟨m, operands, _, assemble_of_asmCommand hi, hi⟩

/-! ### Symbols -/

/-- The latest `.bytes` line of a name gives its bytes. -/
theorem asmStream_define_same (env : AsmEnv) (name : List Char) (items : List AsmByte) :
    asmStream (asmDefine env name items) (.buffer name) = some (asmBytes env items) :=
  List.lookup_cons_self

/-- A `.bytes` line defines no other name. -/
theorem asmStream_define_other (env : AsmEnv) {name name' : List Char} (items : List AsmByte) (h : name' ≠ name) :
    asmStream (asmDefine env name items) (.buffer name') = asmStream env (.buffer name') := by
  simp [asmStream, asmDefine, List.lookup_cons, beq_false_of_ne h]

/-- Settles O57: the bytes of each symbol. -/
theorem assemblerSymbolsStandForTheirBytes : Obligations.AssemblerSymbolsStandForTheirBytes := by
  refine ⟨asmStream_hex, fun _ => rfl, fun _ _ _ => List.flatMap_append, fun _ _ => rfl, fun env name items => ?_,
    fun env v b hv => ?_, fun _ _ => rfl⟩
  · exact ⟨asmDefine env name items, rfl, asmStream_define_same env name items,
      fun name' hn => asmStream_define_other env items hn⟩
  · rcases hv with rfl | rfl | rfl | rfl | rfl <;> rfl

end Sys2Proof.Laws
end

section
/-! The quantizer (40_color_codec.md): a channel is its three upper bits and its bucket-floor, an opaque code is the
number of a bucket triple, and a round trip takes every pixel to the color of its code. -/
namespace Sys2Proof.Laws
open Sys2Proof.Machine

/-! ### Buckets -/

/-- The bucket of a channel is its three upper bits (R80). -/
theorem toNat_extractLsb'_eq_bucket (c : Byte) : (c.extractLsb' 5 3).toNat = bucket c := by
  have hlt : c.toNat / 32 < 8 := bucket_lt c
  rw [BitVec.extractLsb'_toNat, Nat.shiftRight_eq_div_pow, Nat.mod_eq_of_lt hlt]
  rfl

/-- The bucket-floor of a channel, as a number (R80). -/
theorem toNat_channelOf_bucket (c : Byte) : (channelOf (bucket c)).toNat = c.toNat / 32 * 32 :=
  toNat_channelOf (bucket_lt c)

/-- A channel is its own bucket-floor exactly when it is a multiple of 32 (R86). -/
theorem channelOf_bucket_eq_self_iff (c : Byte) : channelOf (bucket c) = c ↔ c.toNat % 32 = 0 := by
  rw [← BitVec.toNat_inj, toNat_channelOf_bucket]
  omega

/-! ### Opaque codes -/

/-- Every code from 1 to 512 is the code of a bucket triple (R82). -/
theorem exists_opaqueCode {n : Nat} (hpos : 1 ≤ n) (hle : n ≤ 512) :
    ∃ rb gb bb, rb < 8 ∧ gb < 8 ∧ bb < 8 ∧ opaqueCode rb gb bb = n := by
  refine ⟨(n - 1) / 64, (n - 1) % 64 / 8, (n - 1) % 8, ?_, ?_, ?_, ?_⟩
  · omega
  · omega
  · omega
  · rw [opaqueCode]; omega

/-- Different bucket triples have different codes (R82). -/
theorem opaqueCode_injective {rb gb bb rb' gb' bb' : Nat} (hg : gb < 8) (hb : bb < 8) (hg' : gb' < 8) (hb' : bb' < 8)
    (h : opaqueCode rb gb bb = opaqueCode rb' gb' bb') : rb = rb' ∧ gb = gb' ∧ bb = bb' := by
  simp only [opaqueCode] at h
  omega

/-- Opaque pixels have the same code exactly when they have the same buckets (R82). -/
theorem qenc_eq_qenc_iff {p q : Pixel} (hp : p.a ≠ 0#8) (hq : q.a ≠ 0#8) :
    qenc p = qenc q ↔ bucket p.r = bucket q.r ∧ bucket p.g = bucket q.g ∧ bucket p.b = bucket q.b := by
  rw [← BitVec.toNat_inj, toNat_qenc_opaque hp, toNat_qenc_opaque hq]
  constructor
  · exact opaqueCode_injective (bucket_lt _) (bucket_lt _) (bucket_lt _) (bucket_lt _)
  · rintro ⟨hr, hg, hb⟩
    rw [hr, hg, hb]

/-- Three fields of three bits, side by side, as a number. -/
theorem toNat_append_three (x y z : BitVec 3) :
    (x ++ y ++ z : BitVec 9).toNat = x.toNat * 64 + y.toNat * 8 + z.toNat := by
  rw [BitVec.toNat_append, BitVec.toNat_append, ← Nat.shiftLeft_add_eq_or_of_lt y.isLt,
    ← Nat.shiftLeft_add_eq_or_of_lt z.isLt, Nat.shiftLeft_eq, Nat.shiftLeft_eq]
  omega

/-- An opaque code is one more than its buckets side by side (R82). -/
theorem qenc_eq_append {p : Pixel} (h : p.a ≠ 0#8) :
    qenc p =
      (p.r.extractLsb' 5 3 ++ p.g.extractLsb' 5 3 ++ p.b.extractLsb' 5 3 : BitVec 9).zeroExtend 16 + 1#16 := by
  have hr := bucket_lt p.r
  have hg := bucket_lt p.g
  have hb := bucket_lt p.b
  apply BitVec.eq_of_toNat_eq
  rw [toNat_qenc_opaque h, opaqueCode, BitVec.toNat_add, BitVec.toNat_setWidth, toNat_append_three,
    toNat_extractLsb'_eq_bucket, toNat_extractLsb'_eq_bucket, toNat_extractLsb'_eq_bucket, BitVec.toNat_ofNat]
  omega

/-- QENC produces exactly the values 0 .. 512: a code in range is that of its own color (R82, R85). -/
theorem exists_toNat_qenc_iff (n : Nat) : (∃ p : Pixel, (qenc p).toNat = n) ↔ n ≤ 512 := by
  constructor
  · rintro ⟨p, rfl⟩
    exact qenc_le p
  · intro hn
    have hcode : (BitVec.ofNat 16 n).toNat = n := by rw [BitVec.toNat_ofNat]; omega
    exact ⟨codeColor (BitVec.ofNat 16 n), by rw [qenc_codeColor (by rwa [hcode]), hcode]⟩

/-- The lightest opaque pixels have the code 512 (R81). -/
theorem toNat_qenc_lightest {p : Pixel} (ha : p.a ≠ 0#8) (hr : 224 ≤ p.r.toNat) (hg : 224 ≤ p.g.toNat)
    (hb : 224 ≤ p.b.toNat) : (qenc p).toNat = 512 := by
  simp only [toNat_qenc_opaque ha, opaqueCode, bucket, Config.bucketDiv]
  omega

/-- Every other pixel's code is at most 511 (R84). -/
theorem toNat_qenc_le_of_darker {p : Pixel} (h : p.r.toNat < 224 ∨ p.g.toNat < 224 ∨ p.b.toNat < 224) :
    (qenc p).toNat ≤ 511 := by
  by_cases ha : p.a = 0#8
  · rw [qenc_transparent ha]
    decide
  · simp only [toNat_qenc_opaque ha, opaqueCode, bucket, Config.bucketDiv]
    omega

/-! ### The color of a code -/

@[simp] theorem codeColor_zero : codeColor 0#16 = ⟨0#8, 0#8, 0#8, 0#8⟩ := rfl

/-- The channels of an opaque code in range are its buckets' floors, as numbers (R83). -/
theorem exists_codeColor_opaque {c : Code} (h0 : c ≠ 0#16) (h : c.toNat ≤ 512) :
    ∃ r g b, codeColor c = ⟨r, g, b, 255#8⟩ ∧ r.toNat = (c.toNat - 1) / 64 * 32 ∧
      g.toNat = (c.toNat - 1) % 64 / 8 * 32 ∧ b.toNat = (c.toNat - 1) % 8 * 32 :=
  ⟨_, _, _, if_neg h0, toNat_channelOf (by omega), toNat_channelOf (by omega), toNat_channelOf (by omega)⟩

/-- With `DECODE_MAX` = 512 every pixel's code is in range (R84). -/
theorem qdec_qenc (p : Pixel) (idx : BitVec 16) (off : BitVec 64) :
    qdec .max512 (qenc p) idx off = .ok (codeColor (qenc p)) :=
  qdec_ok (qenc_le p)

/-- What a round trip makes of a pixel is the color of its code. -/
theorem eq_codeColor_of_qdec_qenc {p q : Pixel} {idx : BitVec 16} {off : BitVec 64}
    (h : qdec .max512 (qenc p) idx off = .ok q) : q = codeColor (qenc p) :=
  (qdec_eq_ok h).2

/-- The pixels that are the color of their own code are the zero color and the aligned opaque ones (R86). -/
theorem codeColor_qenc_eq_self_iff (p : Pixel) :
    codeColor (qenc p) = p ↔ p = ⟨0#8, 0#8, 0#8, 0#8⟩ ∨
      (p.a = 255#8 ∧ p.r.toNat % 32 = 0 ∧ p.g.toNat % 32 = 0 ∧ p.b.toNat % 32 = 0) := by
  obtain ⟨r, g, b, a⟩ := p
  by_cases ha : a = 0#8
  · rw [qenc_transparent ha, codeColor_zero]
    constructor
    · exact fun h => .inl h.symm
    · rintro (h | ⟨h, -⟩)
      · exact h.symm
      · exact absurd (ha.symm.trans h) (by decide)
  · rw [codeColor_qenc ha, Pixel.mk.injEq, channelOf_bucket_eq_self_iff, channelOf_bucket_eq_self_iff,
      channelOf_bucket_eq_self_iff]
    constructor
    · rintro ⟨hr, hg, hb, h⟩
      exact .inr ⟨h.symm, hr, hg, hb⟩
    · rintro (h | ⟨h, hr, hg, hb⟩)
      · exact absurd (congrArg Pixel.a h) ha
      · exact ⟨hr, hg, hb, h.symm⟩

/-! ### The obligations -/

/-- Settles O28: QENC always completes with the pixel's code, whose value R81 gives for either kind of pixel. -/
theorem qencReturnsTheBucketCode : Obligations.QencReturnsTheBucketCode := by
  refine ⟨decode_qenc, fun r g b a s => ⟨_, _, exec_of_wellFormed rfl, completesOk_completeOk _ s, ?_⟩⟩
  split
  · next ha => rw [qenc_transparent ha]; rfl
  · next ha => exact toNat_qenc_opaque ha

/-- Settles O29, by the number of a bucket triple: its bits, its two inverses and its range. -/
theorem opaqueCodeIsTheBucketsSideBySide : Obligations.OpaqueCodeIsTheBucketsSideBySide :=
  ⟨fun _ => qenc_eq_append, fun _ => exists_opaqueCode,
    fun _ _ _ _ _ _ _ hg hb _ hg' hb' => opaqueCode_injective hg hb hg' hb', fun _ _ => qenc_eq_qenc_iff,
    exists_toNat_qenc_iff⟩

/-- Settles O30: QDEC completes with what `qdec` answers, an error above `DECODE_MAX` and the code's color up to it. -/
theorem qdecReturnsTheBucketFloorColor : Obligations.QdecReturnsTheBucketFloorColor := by
  refine ⟨decode_qdec, rfl, rfl, fun code s => ⟨_, exec_of_wellFormed rfl, fun h => ?_, fun h => ?_, fun h0 h => ?_⟩⟩
  · rw [perform, qdec_error h]
    exact completesErr_raiseError _ s
  · rw [perform, qdec_ok (by simp [h]), h]
    exact completesOk_completeOk _ s
  · obtain ⟨r, g, b, hc, hr, hg, hb⟩ := exists_codeColor_opaque h0 (Nat.le_trans h (decodeLimit_le _))
    rw [perform, qdec_ok h, hc]
    exact ⟨r, g, b, completesOk_completeOk _ s, hr, hg, hb⟩

/-- Settles O31: a pixel's code is always in range but for 512 under the limit 511, which only the lightest have. -/
theorem decodeOfEncodeIsTheBucketFloor : Obligations.DecodeOfEncodeIsTheBucketFloor := by
  intro p idx off
  refine ⟨fun ha limit => ?_, fun ha => ?_, fun ha hr hg hb => ?_, fun h => ?_⟩
  · rw [qenc_transparent ha]
    exact qdec_ok (Nat.zero_le _)
  · rw [qdec_qenc, codeColor_qenc ha]
    exact ⟨_, _, _, rfl, toNat_channelOf_bucket _, toNat_channelOf_bucket _, toNat_channelOf_bucket _⟩
  · apply qdec_error
    rw [toNat_qenc_lightest ha hr hg hb]
    decide
  · rw [qdec_qenc]
    exact qdec_ok (toNat_qenc_le_of_darker h)

/-- Settles O32: the color of a code in range encodes to the code, and a pixel's code is always in range. -/
theorem encodeOfDecodeIsTheCode : Obligations.EncodeOfDecodeIsTheCode := by
  refine ⟨fun limit code idx off h => ⟨_, qdec_ok h, qenc_codeColor (Nat.le_trans h (decodeLimit_le limit))⟩,
    fun p q idx off h => ?_⟩
  rw [eq_codeColor_of_qdec_qenc h]
  exact qenc_codeColor (qenc_le p)

/-- Settles O33: a round trip answers the color of the pixel's code. -/
theorem roundTripKeepsExactlyTheAlignedColors : Obligations.RoundTripKeepsExactlyTheAlignedColors := by
  intro p q idx off h
  rw [eq_codeColor_of_qdec_qenc h]
  exact ⟨codeColor_qenc_eq_self_iff p, codeColor_alpha _⟩

end Sys2Proof.Laws
end

section
/-! The container encode path (41_container_encode.md): what of a name its tag depends on, the layout of a descriptor
and of a block of codes, and that BUILD is the primitives one after another with the first of their errors. -/
namespace Sys2Proof.Laws
open Sys2Proof.Machine

/-! ### Completions with a known outcome -/

theorem completesOk_of_perform {i : Instr} {s : State} {v : Payload} (h : perform s.cfg i = .ok v) :
    CompletesOk s (complete (perform s.cfg i) s) v := by
  rw [h]
  exact completesOk_completeOk v s

theorem completesErr_of_perform {i : Instr} {s : State} {reason : Reason} {idx : BitVec 16} {off : BitVec 64}
    {st : Byte} (h : perform s.cfg i = .error ⟨reason, idx, off⟩) (hst : statusErr reason = st) :
    CompletesErr s (complete (perform s.cfg i) s) st idx off := by
  rw [h, ← hst]
  exact completesErr_raiseError _ s

/-- A well-formed command whose outcome is a payload leaves it in the response (R30). -/
theorem exec_delivers {i : Instr} {s : State} {v : Payload} (hw : i.wellFormed s.cfg = true)
    (h : perform s.cfg i = .ok v) : ∃ t, exec i s = .next t ∧ t.payload = some v :=
  ⟨_, exec_of_wellFormed hw, (completesOk_of_perform h).payload⟩

/-- A command that leaves no payload has an error for its outcome, and its reason is in `STATUS` (R30, R138). -/
theorem perform_of_no_payload {i : Instr} {s t : State} (h : exec i s = .next t) (hv : t.payload = none) :
    ∃ e, perform s.cfg i = .error e ∧ t.status = statusErr e.reason := by
  obtain ⟨-, rfl⟩ := exec_next h
  cases ho : perform s.cfg i with
  | ok v => rw [ho] at hv; cases hv
  | error e => exact ⟨e, rfl, rfl⟩

/-- A mapped outcome is an error only when the outcome was. -/
theorem exceptMap_eq_error {ε α β : Type} {f : α → β} {x : Except ε α} {e : ε} (h : x.map f = .error e) :
    x = .error e := by
  cases x with
  | error e' => injection h with h; rw [h]
  | ok a => cases h

/-! ### The tag of a name -/

theorem tagChar_take {j : Nat} (hj : j < 4) (name : List Char) : tagChar (name.take 4) j = tagChar name j := by
  simp only [tagChar, List.getElem?_take_of_lt hj]

/-- The tag, or the error in its place, depends on the first four characters alone (R90). -/
theorem tagOf_take (name : List Char) (idx : BitVec 16) : tagOf (name.take 4) idx = tagOf name idx := by
  have htake : (name.take 4).take Config.nameLen = name.take Config.nameLen := List.take_take
  simp only [tagOf, htake, tagChar_take (j := 0) (by decide), tagChar_take (j := 1) (by decide),
    tagChar_take (j := 2) (by decide), tagChar_take (j := 3) (by decide)]

/-- A space is what the padding puts where a name has ended (R90, G1). -/
theorem tagChar_append_spaces (name : List Char) (n j : Nat) :
    tagChar (name ++ List.replicate n ' ') j = tagChar name j := by
  by_cases hj : j < name.length
  · simp only [tagChar, List.getElem?_append_left hj]
  · have hend : name[j]? = none := List.getElem?_eq_none (by omega)
    simp only [tagChar, List.getElem?_append_right (Nat.le_of_not_lt hj), hend, List.getElem?_replicate]
    split
    · next c hc => split at hc <;> cases hc; rfl
    · rfl

/-- Spaces at the end of a name do not change its tag (R92). -/
theorem tagOf_append_spaces (name : List Char) (n : Nat) (idx : BitVec 16) :
    tagOf (name ++ List.replicate n ' ') idx = tagOf name idx := by
  have hspace : isAscii ' ' = true := by decide
  have hall : ((name ++ List.replicate n ' ').take Config.nameLen).all isAscii =
      (name.take Config.nameLen).all isAscii := by
    simp [List.take_append, List.take_replicate, List.all_replicate, hspace]
  simp only [tagOf, hall, tagChar_append_spaces]

/-! ### The descriptor and the block of codes -/

theorem dpack_of_countCheck_ok {w h : U32} {n : Nat} {p : U32} (hc : countCheck w h n noIndex = .ok p) (t : Tag) :
    dpack w h n t = .ok (descBytes p t w h) := by
  rw [dpack, hc]
  rfl

theorem dpack_of_countCheck_error {w h : U32} {n : Nat} {e : CmdError} (hc : countCheck w h n noIndex = .error e)
    (t : Tag) : dpack w h n t = .error e := by
  rw [dpack, hc]
  rfl

/-- The four fields of a descriptor stand at 0, 4, 8 and 12 (R68). -/
theorem descBytes_fields (p : U32) (t : Tag) (w h : U32) :
    leNat ((descBytes p t w h).take 4) = p.toNat ∧ ((descBytes p t w h).drop 4).take 4 = tagBytes t ∧
      leNat (((descBytes p t w h).drop 8).take 4) = w.toNat ∧ leNat ((descBytes p t w h).drop 12) = h.toNat :=
  ⟨leNat_le32 p, rfl, leNat_le32 w, leNat_le32 h⟩

theorem ppack_cons (p : Pixel) (rest : List Pixel) : ppack (p :: rest) = le16 (qenc p) ++ ppack rest := rfl

/-- The codes from pixel `i` on are those of the pixels from `i` on (R98). -/
theorem drop_ppack (pixels : List Pixel) (i : Nat) : (ppack pixels).drop (2 * i) = ppack (pixels.drop i) := by
  induction i generalizing pixels with
  | zero => rfl
  | succ i ih =>
    cases pixels with
    | nil => rfl
    | cons p rest =>
      rw [ppack_cons, Nat.mul_succ, Nat.add_comm, ← List.drop_drop]
      exact ih rest

/-- The two bytes of pixel `i` in a block of codes (R97). -/
theorem getElem?_ppack {pixels : List Pixel} {i : Nat} {p : Pixel} (h : pixels[i]? = some p) :
    (ppack pixels)[2 * i]? = some ((qenc p).extractLsb' 0 8) ∧
      (ppack pixels)[2 * i + 1]? = some ((qenc p).extractLsb' 8 8) := by
  obtain ⟨hi, rfl⟩ := List.getElem?_eq_some_iff.mp h
  have hdrop : (ppack pixels).drop (2 * i) = le16 (qenc pixels[i]) ++ ppack (pixels.drop (i + 1)) := by
    rw [drop_ppack, List.drop_eq_getElem_cons hi, ppack_cons]
  constructor
  · rw [← Nat.add_zero (2 * i), ← List.getElem?_drop, hdrop]
    rfl
  · rw [← List.getElem?_drop, hdrop]
    rfl

/-! ### BUILD and the primitives -/

theorem imageError_overflow {im : Image} (ho : 0xFFFFFFFF < im.width.toNat * im.height.toNat) :
    imageError im = some 0x45#8 := by
  rw [imageError, if_pos ho]

theorem imageError_mismatch {im : Image} (ho : im.width.toNat * im.height.toNat ≤ 0xFFFFFFFF)
    (hm : im.width.toNat * im.height.toNat ≠ im.pixels.length) : imageError im = some 0x25#8 := by
  rw [imageError, if_neg (Nat.not_lt.mpr ho), if_pos hm]

theorem imageError_nonAscii {im : Image} (ho : im.width.toNat * im.height.toNat ≤ 0xFFFFFFFF)
    (hm : im.width.toNat * im.height.toNat = im.pixels.length) {c : Char} (hc : c ∈ im.name.take 4)
    (hn : 0x7F < c.toNat) : imageError im = some 0x35#8 := by
  have hany : (im.name.take 4).any (fun c => decide (0x7F < c.toNat)) = true :=
    List.any_eq_true.mpr ⟨c, hc, decide_eq_true hn⟩
  rw [imageError, if_neg (Nat.not_lt.mpr ho), if_neg (not_not_intro hm), if_pos hany]

/-- An image that DPACK rejects has DPACK's error for its first one (R101). -/
theorem imageError_of_dpack {im : Image} {t : Tag} {e : CmdError}
    (h : dpack im.width im.height im.pixels.length t = .error e) : imageError im = some (statusErr e.reason) := by
  by_cases ho : im.width.toNat * im.height.toNat ≤ 0xFFFFFFFF
  · by_cases hm : im.width.toNat * im.height.toNat = im.pixels.length
    · rw [dpack_of_countCheck_ok (countCheck_ok noIndex ho hm)] at h
      cases h
    · rw [dpack_of_countCheck_error (countCheck_mismatch noIndex ho hm)] at h
      cases h
      exact imageError_mismatch ho hm
  · rw [dpack_of_countCheck_error (countCheck_overflow _ noIndex (by omega))] at h
    cases h
    exact imageError_overflow (by omega)

/-- An image that DPACK takes and TAG rejects has TAG's error for its first one (R101). -/
theorem imageError_of_tagOf {im : Image} {t : Tag} {d : Bytes} {e : CmdError}
    (hd : dpack im.width im.height im.pixels.length t = .ok d) (h : tagOf im.name noIndex = .error e) :
    imageError im = some (statusErr e.reason) := by
  obtain ⟨p, hp, -⟩ := dpack_eq_ok hd
  obtain ⟨ho, hm, -⟩ := countCheck_eq_ok hp
  rcases ascii_or_not im.name with ha | ⟨c, hc, hn⟩
  · obtain ⟨t', ht, -⟩ := tagOf_ascii noIndex ha
    rw [ht] at h
    cases h
  · rw [tagOf_nonAscii noIndex hc hn] at h
    cases h
    exact imageError_nonAscii ho hm hc hn

/-- The record of a good image is what DPACK delivers on the tag TAG delivers, and then what PPACK delivers (R100). -/
theorem imageBytes_of_primitives {im : Image} (h : imageError im = none) (s : State) :
    ∃ tg d b t₁ t₂ t₃, exec (.tag im.name) s = .next t₁ ∧ t₁.payload = some (.nameTag tg) ∧
      exec (.dpack im.width im.height im.pixels.length tg) s = .next t₂ ∧ t₂.payload = some (.desc d) ∧
      exec (.ppack im.pixels) s = .next t₃ ∧ t₃.payload = some (.blk b) ∧ imageBytes im = d ++ b := by
  obtain ⟨ho, hm, ha⟩ := imageError_eq_none.mp h
  obtain ⟨tg, ht, hb⟩ := tagOf_ascii noIndex ha
  have hd := dpack_of_countCheck_ok (countCheck_ok noIndex ho hm) tg
  obtain ⟨t₁, h₁, hv₁⟩ := exec_delivers (i := .tag im.name) (s := s) rfl (congrArg (Except.map Payload.nameTag) ht)
  obtain ⟨t₂, h₂, hv₂⟩ := exec_delivers (i := .dpack im.width im.height im.pixels.length tg) (s := s) rfl
    (congrArg (Except.map Payload.desc) hd)
  obtain ⟨t₃, h₃, hv₃⟩ := exec_delivers (i := .ppack im.pixels) (s := s) rfl rfl
  refine ⟨tg, _, _, t₁, t₂, t₃, h₁, hv₁, h₂, hv₂, h₃, hv₃, ?_⟩
  rw [imageBytes, descBytes, hb, ppack]

/-- BUILD of too many images and HPACK of their number fail alike (R100). -/
theorem exec_build_tooMany {images : List Image} (hl : 255 < images.length) (s : State) :
    exec (.build images) s = exec (.hpack images.length) s := by
  have hp : perform s.cfg (.build images) = perform s.cfg (.hpack images.length) := by
    rw [perform, perform, build_tooMany s.cfg hl, hpack_error s.cfg hl]
    rfl
  rw [exec_of_wellFormed rfl, exec_of_wellFormed rfl, hp]

/-! ### The obligations -/

/-- Settles O34, by the two cases of a name: TAG completes with what `tagOf` answers. -/
theorem tagStoresFourAsciiCharactersPadded : Obligations.TagStoresFourAsciiCharactersPadded := by
  refine ⟨decode_tag, fun name s => ⟨_, exec_of_wellFormed rfl, fun ha => ?_, fun c hc hn => ?_⟩⟩
  · obtain ⟨tg, ht, hb⟩ := tagOf_ascii noIndex ha
    exact ⟨tg, completesOk_of_perform (congrArg (Except.map Payload.nameTag) ht), hb⟩
  · exact completesErr_of_perform (congrArg (Except.map Payload.nameTag) (tagOf_nonAscii noIndex hc hn)) rfl

/-- Settles O35: a tag depends on four characters and not on spaces after them, and BUILD examines each image alone. -/
theorem tagsOfDifferentNamesMayCollide : Obligations.TagsOfDifferentNamesMayCollide := by
  refine ⟨fun name name' idx h => ?_, fun name j idx _ => tagOf_append_spaces name j idx, fun im im' s h h' => ?_⟩
  · rw [← tagOf_take, h, tagOf_take]
  · have hgood : ∀ x ∈ [im, im'], imageError x = none := by simp [h, h']
    have hb := build_ok s.cfg (images := [im, im']) (by simp) hgood
    exact ⟨_, _, exec_of_wellFormed rfl, completesOk_of_perform (congrArg (Except.map Payload.rom) hb)⟩

/-- Settles O36: HPACK completes with what `hpack` answers, and a count up to 255 is its own byte. -/
theorem hpackWritesMagicAndCount : Obligations.HpackWritesMagicAndCount := by
  refine ⟨decode_hpack, fun count s => ⟨_, exec_of_wellFormed rfl, fun hc => ?_, fun hc => ?_⟩⟩
  · exact ⟨BitVec.ofNat 8 count, Nat.mod_eq_of_lt (by omega),
      completesOk_of_perform (congrArg (Except.map Payload.hdr) (hpack_ok s.cfg hc))⟩
  · exact completesErr_of_perform (congrArg (Except.map Payload.hdr) (hpack_error s.cfg hc)) rfl

/-- Settles O37, by the three answers of the count check and the layout of a descriptor. -/
theorem dpackWritesTheDescriptorOrChecksTheCount : Obligations.DpackWritesTheDescriptorOrChecksTheCount := by
  refine ⟨decode_dpack, fun w h n tg s =>
    ⟨_, exec_of_wellFormed rfl, fun ho => ?_, fun ho hm => ?_, fun ho hm => ?_⟩⟩
  · have hd := dpack_of_countCheck_error (countCheck_overflow n noIndex ho) tg
    exact completesErr_of_perform (congrArg (Except.map Payload.desc) hd) rfl
  · have hd := dpack_of_countCheck_error (countCheck_mismatch noIndex ho hm) tg
    exact completesErr_of_perform (congrArg (Except.map Payload.desc) hd) rfl
  · have hd := dpack_of_countCheck_ok (countCheck_ok noIndex ho hm) tg
    obtain ⟨hcount, htag, hwidth, hheight⟩ := descBytes_fields (BitVec.ofNat 32 (w.toNat * h.toNat)) tg w h
    refine ⟨_, completesOk_of_perform (congrArg (Except.map Payload.desc) hd), rfl, ?_, htag, hwidth, hheight⟩
    rw [hcount, BitVec.toNat_ofNat, Nat.mod_eq_of_lt (by omega), hm]

/-- Settles O38: pixel `i` has the two bytes of its code at `2 * i`, which make the code's value. -/
theorem ppackPacksEachPixelInOrder : Obligations.PpackPacksEachPixelInOrder := by
  refine ⟨decode_ppack, fun pixels s => ⟨_, ppack pixels, exec_of_wellFormed rfl, completesOk_of_perform rfl,
    length_ppack pixels, fun i p hp => ?_⟩⟩
  obtain ⟨hlo, hhi⟩ := getElem?_ppack hp
  exact ⟨_, _, hlo, hhi, leNat_le16 (qenc p)⟩

/-- Settles O39, by the three answers of `build`: too many images, a first bad image, or the whole container. -/
theorem buildDeliversTheContainerOrTheFirstError : Obligations.BuildDeliversTheContainerOrTheFirstError := by
  refine ⟨decode_build, fun images s => ⟨_, exec_of_wellFormed rfl, fun hl => ?_,
    fun hl before im after st himages hgood hbad => ?_, fun hl hgood => ?_⟩⟩
  · exact completesErr_of_perform (congrArg (Except.map Payload.rom) (build_tooMany s.cfg hl)) rfl
  · subst himages
    obtain ⟨reason, hb, hst⟩ := build_error s.cfg hl hgood hbad
    exact completesErr_of_perform (congrArg (Except.map Payload.rom) hb) hst
  · exact completesOk_of_perform (congrArg (Except.map Payload.rom) (build_ok s.cfg hl hgood))

/-- Settles O40: a container is a header and the records of good images, each of which the primitives make; and the
error of a primitive is its image's error, which BUILD reports by O39. -/
theorem buildIsTheCompositionOfThePrimitives : Obligations.BuildIsTheCompositionOfThePrimitives := by
  refine ⟨fun images s t rom h hv => ?_, fun images s hl => exec_build_tooMany hl s,
    fun images before im after s tg t₂ hl himages hgood hd => ?_⟩
  · obtain ⟨hl, hgood, rfl⟩ := build_eq_ok (build_of_payload h hv)
    obtain ⟨t₀, h₀, hv₀⟩ := exec_delivers (i := .hpack images.length) (s := s) rfl
      (congrArg (Except.map Payload.hdr) (hpack_ok s.cfg hl))
    refine ⟨t₀, _, images.map imageBytes, h₀, hv₀, by rw [List.flatMap_def], List.length_map .., fun k im hk => ?_⟩
    obtain ⟨tg, d, b, t₁, t₂, t₃, h₁, hv₁, h₂, hv₂, h₃, hv₃, hbytes⟩ :=
      imageBytes_of_primitives (hgood im (List.mem_of_getElem? hk)) s
    exact ⟨tg, d, b, t₁, t₂, t₃, h₁, hv₁, h₂, hv₂, h₃, hv₃, by rw [List.getElem?_map, hk, ← hbytes]; rfl⟩
  · obtain ⟨t, hbuild, -, hfirst, -⟩ := buildDeliversTheContainerOrTheFirstError.2 images s
    refine ⟨fun hv => ?_, fun t₁ hv ht hv₁ => ?_⟩
    · obtain ⟨e, hp, hst⟩ := perform_of_no_payload hd hv
      rw [hst]
      exact ⟨t, hbuild, hfirst hl before im after _ himages hgood (imageError_of_dpack (exceptMap_eq_error hp))⟩
    · obtain ⟨v, hv⟩ := Option.ne_none_iff_exists'.mp hv
      obtain ⟨d, hd, -⟩ := exceptMap_eq_ok (perform_of_payload hd hv)
      obtain ⟨e, hp, hst⟩ := perform_of_no_payload ht hv₁
      rw [hst]
      exact ⟨t, hbuild, hfirst hl before im after _ himages hgood (imageError_of_tagOf hd (exceptMap_eq_error hp))⟩

end Sys2Proof.Laws
end

section
/-! SUPPORT. Trailing padding (42_container_decode.md R114): what the loop of `untag` keeps of a byte string and what it
removes, and that the name of a stored tag is the stored characters without their trailing spaces. -/
namespace Sys2Proof.Laws
open Sys2Proof.Machine

/-! ### The loop -/

theorem keptLen_of_space {bytes : Bytes} {n : Nat} (h : bytes[n]? = some 0x20#8) :
    keptLen bytes (n + 1) = keptLen bytes n :=
  if_pos h

theorem keptLen_of_other {bytes : Bytes} {n : Nat} (h : bytes[n]? ≠ some 0x20#8) : keptLen bytes (n + 1) = n + 1 :=
  if_neg h

theorem keptLen_le (bytes : Bytes) (n : Nat) : keptLen bytes n ≤ n := by
  induction n with
  | zero => exact Nat.le_refl 0
  | succ n ih =>
    by_cases h : bytes[n]? = some 0x20#8
    · rw [keptLen_of_space h]
      exact Nat.le_succ_of_le ih
    · exact Nat.le_of_eq (keptLen_of_other h)

/-- The loop looks at no byte from `n` on. -/
theorem keptLen_append {bytes : Bytes} {n : Nat} (hn : n ≤ bytes.length) (rest : Bytes) :
    keptLen (bytes ++ rest) n = keptLen bytes n := by
  induction n with
  | zero => rfl
  | succ n ih => rw [keptLen, keptLen, List.getElem?_append_left hn, ih (Nat.le_of_lt hn)]

/-- The loop removes nothing but spaces (R114). -/
theorem take_eq_take_keptLen_append (bytes : Bytes) (n : Nat) :
    ∃ j, bytes.take n = bytes.take (keptLen bytes n) ++ List.replicate j 0x20#8 := by
  induction n with
  | zero => exact ⟨0, rfl⟩
  | succ n ih =>
    by_cases h : bytes[n]? = some 0x20#8
    · obtain ⟨j, hj⟩ := ih
      refine ⟨j + 1, ?_⟩
      rw [keptLen_of_space h, List.take_add_one, h, hj, List.replicate_succ', List.append_assoc]
      rfl
    · exact ⟨0, by rw [keptLen_of_other h, List.replicate_zero, List.append_nil]⟩

/-- The loop leaves no space at the end (R114). -/
theorem getLast?_take_keptLen {bytes : Bytes} {n : Nat} (hn : n ≤ bytes.length) :
    (bytes.take (keptLen bytes n)).getLast? ≠ some 0x20#8 := by
  induction n with
  | zero => exact nofun
  | succ n ih =>
    by_cases h : bytes[n]? = some 0x20#8
    · rw [keptLen_of_space h]
      exact ih (Nat.le_of_lt hn)
    · have hb : bytes[n]? = some bytes[n] := List.getElem?_eq_getElem hn
      rw [keptLen_of_other h, List.take_add_one, hb, Option.toList_some, List.getLast?_concat, ← hb]
      exact h

/-! ### A byte string without its trailing spaces -/

/-- A byte string without its trailing spaces: the loop of `untag`, over all of it. -/
def withoutSpaces (bytes : Bytes) : Bytes := bytes.take (keptLen bytes bytes.length)

/-- `untag` removes a tag's trailing spaces (R114). -/
theorem untag_eq_withoutSpaces (t : Tag) : untag t = withoutSpaces (tagBytes t) := rfl

/-- What is removed is spaces, as many as bytes are gone. -/
theorem withoutSpaces_append_replicate (bytes : Bytes) :
    withoutSpaces bytes ++ List.replicate (bytes.length - (withoutSpaces bytes).length) 0x20#8 = bytes := by
  obtain ⟨j, hj⟩ := take_eq_take_keptLen_append bytes bytes.length
  have hsplit : bytes = withoutSpaces bytes ++ List.replicate j 0x20#8 := by rwa [List.take_length] at hj
  have hlen := congrArg List.length hsplit
  rw [List.length_append, List.length_replicate] at hlen
  have hcount : bytes.length - (withoutSpaces bytes).length = j := by omega
  rw [hcount, ← hsplit]

/-- No space is left at the end. -/
theorem getLast?_withoutSpaces (bytes : Bytes) : (withoutSpaces bytes).getLast? ≠ some 0x20#8 :=
  getLast?_take_keptLen (Nat.le_refl _)

/-- One space at the end of a byte string does not matter. -/
theorem withoutSpaces_concat_space (bytes : Bytes) : withoutSpaces (bytes ++ [0x20#8]) = withoutSpaces bytes := by
  have hlast : (bytes ++ [0x20#8])[bytes.length]? = some 0x20#8 := List.getElem?_concat_length
  have hkept : keptLen (bytes ++ [0x20#8]) (bytes.length + 1) = keptLen bytes bytes.length := by
    rw [keptLen_of_space hlast, keptLen_append (Nat.le_refl _)]
  rw [withoutSpaces, List.length_append, List.length_singleton, hkept, List.take_append_of_le_length (keptLen_le ..)]
  rfl

/-- Spaces at the end of a byte string do not matter. -/
theorem withoutSpaces_append_spaces (bytes : Bytes) (n : Nat) :
    withoutSpaces (bytes ++ List.replicate n 0x20#8) = withoutSpaces bytes := by
  induction n with
  | zero => rw [List.replicate_zero, List.append_nil]
  | succ n ih => rw [List.replicate_succ', ← List.append_assoc, withoutSpaces_concat_space, ih]

/-! ### The name of a stored tag -/

/-- The characters of a name that its tag stores, as bytes (R90). -/
def storedChars (name : List Char) : Bytes := (name.take 4).map fun c => BitVec.ofNat 8 c.toNat

/-- The name of a stored tag is the stored characters without their trailing spaces (R125). -/
theorem untag_of_tagOf {name : List Char} {idx : BitVec 16} {t : Tag} (h : tagOf name idx = .ok t) :
    untag t = withoutSpaces (storedChars name) := by
  obtain ⟨-, hb⟩ := tagOf_eq_ok h
  rw [untag_eq_withoutSpaces, hb]
  exact withoutSpaces_append_spaces (storedChars name) _

/-- Spaces within a name's first four characters, at their end, are stored as spaces (R90, G1). -/
theorem storedChars_of_spaces {name common : List Char} {i : Nat} (h : name.take 4 = common ++ List.replicate i ' ') :
    storedChars name = (common.map fun c => BitVec.ofNat 8 c.toNat) ++ List.replicate i 0x20#8 := by
  rw [storedChars, h, List.map_append, List.map_replicate]
  rfl

end Sys2Proof.Laws
end

section
/-! SUPPORT. The outcomes of the decode commands as a host sees them (42_container_decode.md): completions that record an
offset, and the host's walk with the primitives, which is a walk over good records. -/
namespace Sys2Proof.Laws
open Sys2Proof.Machine

/-! ### Completions -/

/-- A command whose outcome is an error at an offset of the stream records the offset (R134). -/
theorem completesErr_atOffset {i : Instr} {s : State} {reason : Reason} {idx : BitVec 16} {off : Nat} {st : Byte}
    (h : perform s.cfg i = .error ⟨reason, idx, atOffset off⟩) (hst : statusErr reason = st) :
    ∃ v, Records off v ∧ CompletesErr s (complete (perform s.cfg i) s) st idx v :=
  ⟨atOffset off, records_atOffset off, completesErr_of_perform h hst⟩

/-- PARSE of an admitted input completes with records exactly when they are what `parse` answers. -/
theorem exec_parse_completesOk_iff {input : Bytes} {s : State} {recs : List Record}
    (hin : s.cfg.admitsLen input.length = true) :
    (∃ t, exec (.parse input) s = .next t ∧ CompletesOk s t (.records recs)) ↔ parse s.cfg input = .ok recs := by
  constructor
  · rintro ⟨t, h, hok⟩
    exact parse_of_payload h hok.payload
  · intro h
    exact ⟨_, exec_of_wellFormed hin, completesOk_of_perform (congrArg (Except.map Payload.records) h)⟩

/-- A header in the response of HUNPACK stands at the beginning of the stream (R111). -/
theorem stream_of_header {input : Bytes} {s t : State} {n : Byte} {cur : Nat} (h : exec (.hunpack input) s = .next t)
    (hv : t.payload = some (.header n cur)) : cur = 5 ∧ ∃ rest, input = tagBytes s.cfg.magic ++ n :: rest := by
  obtain ⟨r, hr, he⟩ := exceptMap_eq_ok (perform_of_payload h hv)
  obtain ⟨n', rest, hinput, rfl⟩ := hunpack_eq_ok hr
  injection he with hn hcur
  exact ⟨hcur, rest, hn ▸ hinput⟩

/-- A descriptor in the response of DUNPACK is the one at the offset, and it passed the checks (R113). -/
theorem descriptor_of_payload {input : Bytes} {off next : Nat} {s t : State} {pc w h : U32} {tg : Tag}
    (he : exec (.dunpack input off) s = .next t) (hv : t.payload = some (.descriptor pc tg w h next)) :
    off + 16 ≤ input.length ∧ ¬ DimBad s.cfg input off ∧ (⟨pc, tg, w, h⟩ : Descriptor) = readDescriptor input off ∧
      next = off + 16 := by
  obtain ⟨r, hr, hp⟩ := exceptMap_eq_ok (perform_of_payload he hv)
  obtain ⟨hfits, hdim, rfl⟩ := dunpack_eq_ok hr
  injection hp with hpc htg hw hh hnext
  exact ⟨hfits, hdim, by rw [hpc, htg, hw, hh], hnext⟩

/-- Pixels in the response of PUNPACK are the colors of codes in range (R117). -/
theorem pixels_of_payload {input : Bytes} {off n next : Nat} {s t : State} {px : List Pixel}
    (he : exec (.punpack input off n) s = .next t) (hv : t.payload = some (.pixels px next)) :
    off + 2 * n ≤ input.length ∧
      (∀ j < n, (readU16 input (off + 2 * j)).toNat ≤ decodeLimit s.cfg.decodeMax) ∧
      px = ((List.range n).map fun j => codeColor (readU16 input (off + 2 * j))) ∧ next = off + 2 * n := by
  obtain ⟨r, hr, hp⟩ := exceptMap_eq_ok (perform_of_payload he hv)
  obtain ⟨hfits, hcodes, rfl⟩ := punpack_eq_ok hr
  injection hp with hpx hnext
  exact ⟨hfits, hcodes, hpx, hnext⟩

/-- A name in the response of UNTAG is that of the tag (R115). -/
theorem name_of_payload {tg : Tag} {s t : State} {name : Bytes} (he : exec (.untag tg) s = .next t)
    (hv : t.payload = some (.name name)) : name = untag tg := by
  have hp : (.ok (.name (untag tg)) : Except CmdError Payload) = .ok (.name name) := perform_of_payload he hv
  injection hp with hp
  injection hp with hp
  exact hp.symm

/-! ### The walk -/

/-- The first record of a host's walk is a good one, as PARSE sees it (R120). -/
theorem goodRecord_of_walk {s : State} {input : Bytes} {m cur last : Nat} {recs : List Record}
    (h : Walk s input (m + 1) cur recs last) :
    GoodRecord s.cfg input cur ∧
      ∃ rest, recs = recordAt input cur :: rest ∧ Walk s input m (recordEnd input cur) rest last := by
  obtain ⟨pc, tg, width, height, cur₁, t₁, px, cur₂, t₂, name, t₃, rest, hd, hvd, hp, hvp, hu, hvu, rfl, hw⟩ := h
  obtain ⟨hdesc, hdim, hfields, rfl⟩ := descriptor_of_payload hd hvd
  obtain ⟨rfl, rfl, rfl, rfl⟩ := Descriptor.mk.inj hfields
  obtain ⟨hfits, hcodes, rfl, rfl⟩ := pixels_of_payload hp hvp
  obtain rfl := name_of_payload hu hvu
  exact ⟨⟨hdesc, hdim, hfits, hcodes⟩, rest, rfl, hw⟩

/-- Over a good record a host can walk (R120). -/
theorem walk_of_goodRecord {s : State} {input : Bytes} {m cur last : Nat} {rest : List Record}
    (hin : s.cfg.admitsLen input.length = true) (hg : GoodRecord s.cfg input cur)
    (hw : Walk s input m (recordEnd input cur) rest last) :
    Walk s input (m + 1) cur (recordAt input cur :: rest) last := by
  obtain ⟨t₁, h₁, hv₁⟩ := exec_delivers (i := .dunpack input cur) hin
    (congrArg (Except.map _) (dunpack_ok s.cfg noIndex hg.descFits hg.dimOk))
  obtain ⟨t₂, h₂, hv₂⟩ := exec_delivers (i := .punpack input (cur + 16) (readU32 input cur).toNat) hin
    (congrArg (Except.map _) (punpack_ok s.cfg noIndex hg.codesFit hg.codesOk))
  obtain ⟨t₃, h₃, hv₃⟩ := exec_delivers (i := .untag (readTag input (cur + 4))) (s := s) rfl rfl
  exact ⟨_, _, _, _, _, t₁, _, _, t₂, _, t₃, rest, h₁, hv₁, h₂, hv₂, h₃, hv₃, rfl, hw⟩

/-- A host's walk is a walk over good records, and collects them (R119, R120). -/
theorem walk_iff_goodRecords {s : State} {input : Bytes} {m cur last : Nat} {recs : List Record}
    (hin : s.cfg.admitsLen input.length = true) :
    Walk s input m cur recs last ↔ GoodRecords s.cfg input m cur recs last := by
  induction m generalizing cur recs with
  | zero => exact Iff.rfl
  | succ m ih =>
    constructor
    · intro h
      obtain ⟨hg, rest, hrecs, hw⟩ := goodRecord_of_walk h
      exact ⟨hg, rest, hrecs, ih.mp hw⟩
    · rintro ⟨hg, rest, rfl, hw⟩
      exact walk_of_goodRecord hin hg (ih.mpr hw)

/-- PARSE fails with the error of the first record that has one (R121). -/
theorem parse_error_of_record {cfg : Config} {n : Byte} {rest : Bytes} {j off : Nat} {recs : List Record} {e : CmdError}
    (hj : j < n.toNat) (hg : GoodRecords cfg (tagBytes cfg.magic ++ n :: rest) j 5 recs off)
    (he : parseRecord cfg (tagBytes cfg.magic ++ n :: rest) j off = .error e) :
    parse cfg (tagBytes cfg.magic ++ n :: rest) = .error e := by
  rw [parse_of_header]
  exact parseRecords_error 0 hj hg (by rwa [Nat.zero_add])

end Sys2Proof.Laws
end

section
/-! SUPPORT. Reading back what BUILD delivers (42_container_decode.md R124): every record of a container of images is
acceptable to a block with `DECODE_MAX` = 512, and one with a code out of range fails with CODE_RANGE. -/
namespace Sys2Proof.Laws
open Sys2Proof.Machine

/-- The configuration with the larger `DECODE_MAX`. -/
def withMax512 (cfg : Config) : Config := { cfg with decodeMax := .max512 }

/-- The record of a good image is acceptable whatever `DIM_CHECK` is (R124). -/
theorem acceptable_imageRaw {cfg : Config} {im : Image} (h : imageError im = none) (hd : cfg.decodeMax = .max512) :
    (imageRaw im).acceptable cfg := by
  obtain ⟨hfit, hcount, -⟩ := imageError_eq_none.mp h
  refine ⟨?_, fun _ => ?_, ?_⟩
  · rwa [length_codes_imageRaw, ← hcount]
  · rw [length_codes_imageRaw, ← hcount]
    rfl
  · rw [hd]
    exact List.forall_mem_map.mpr fun p _ => qenc_le p

/-- The record of an image with one of the lightest opaque pixels is not acceptable with `DECODE_MAX` = 511 (R84). -/
theorem not_acceptable_imageRaw {cfg : Config} {im : Image} {p : Pixel} (hd : cfg.decodeMax = .max511)
    (hp : p ∈ im.pixels) (hc : (qenc p).toNat = 512) : ¬ (imageRaw im).acceptable cfg := by
  rintro ⟨-, -, hcodes⟩
  have hle := hcodes _ (List.mem_map_of_mem hp)
  rw [hc, hd] at hle
  exact absurd hle (by decide)

section
variable {cfg : Config} {input rest : Bytes} {off : Nat} (k : Nat)

/-- A record that only its codes make unacceptable fails with CODE_RANGE (R118). -/
theorem parseRecord_codeRange_of_drop {r : RawRecord} (h : input.drop off = r.bytes ++ rest)
    (ha : r.acceptable (withMax512 cfg)) (hn : ¬ r.acceptable cfg) :
    ∃ idx v, parseRecord cfg input k off = .error ⟨.codeRange, idx, v⟩ := by
  have hg := goodRecord_of_drop h ha
  rcases codes_good_or_first_bad cfg.decodeMax input (off + 16) (readU32 input off).toNat with
    hcodes | ⟨j, hj, hbad, hfirst⟩
  · have hr : (rawAt input off).acceptable cfg := acceptable_rawAt.mpr ⟨hg.dimOk, hcodes⟩
    rw [rawAt_of_drop h ha.1] at hr
    exact absurd hr hn
  · exact ⟨_, _, parseRecord_codeRange cfg k hg.descFits hg.dimOk hg.codesFit hj hbad hfirst⟩

/-- A run of records that only their codes make unacceptable fails with CODE_RANGE if one is (R121). -/
theorem parseRecords_codeRange_of_drop {raws : List RawRecord}
    (h : input.drop off = raws.flatMap RawRecord.bytes ++ rest) (ha : ∀ r ∈ raws, r.acceptable (withMax512 cfg))
    (hn : ¬ ∀ r ∈ raws, r.acceptable cfg) :
    ∃ idx v, parseRecords cfg input raws.length k off = .error ⟨.codeRange, idx, v⟩ := by
  induction raws generalizing k off with
  | nil => exact absurd (List.forall_mem_nil _) hn
  | cons r raws ih =>
    obtain ⟨hr, hraws⟩ := List.forall_mem_cons.mp ha
    rw [List.flatMap_cons, List.append_assoc] at h
    by_cases hok : r.acceptable cfg
    · have hp := parseRecord_ok k (goodRecord_of_drop h hok)
      have hrest : ¬ ∀ r ∈ raws, r.acceptable cfg := fun hall => hn (List.forall_mem_cons.mpr ⟨hok, hall⟩)
      obtain ⟨idx, v, he⟩ := ih (k + 1) (drop_of_drop h rfl) hraws hrest
      rw [← recordEnd_of_drop h hr.1] at he
      exact ⟨idx, v, by rw [List.length_cons, parseRecords, hp]; simp only [bind, Except.bind, he]⟩
    · obtain ⟨idx, v, he⟩ := parseRecord_codeRange_of_drop k h hr hok
      exact ⟨idx, v, parseRecords_error k (j := 0) (Nat.succ_pos _) ⟨rfl, rfl⟩ he⟩

end

/-- PARSE of a container goes over its records from offset 5 on (R119). -/
theorem parse_eq_parseRecords {cfg : Config} {raws : List RawRecord} (hl : raws.length ≤ 255) :
    parse cfg (containerBytes cfg.magic raws) =
      parseRecords cfg (containerBytes cfg.magic raws) raws.length 0 5 := by
  have hstream : containerBytes cfg.magic raws =
      tagBytes cfg.magic ++ BitVec.ofNat 8 raws.length :: raws.flatMap RawRecord.bytes := by
    simp [containerBytes]
  have hcount : (BitVec.ofNat 8 raws.length).toNat = raws.length := by
    rw [BitVec.toNat_ofNat]; omega
  rw [hstream, parse_of_header, hcount]

/-- A container of records that only their codes make unacceptable fails with CODE_RANGE if one is (R121). -/
theorem parse_container_codeRange {cfg : Config} {raws : List RawRecord} (hl : raws.length ≤ 255)
    (ha : ∀ r ∈ raws, r.acceptable (withMax512 cfg)) (hn : ¬ ∀ r ∈ raws, r.acceptable cfg) :
    ∃ idx v, parse cfg (containerBytes cfg.magic raws) = .error ⟨.codeRange, idx, v⟩ := by
  have hrecords : (containerBytes cfg.magic raws).drop 5 = raws.flatMap RawRecord.bytes ++ [] := by
    rw [drop_header, List.append_nil]
  rw [parse_eq_parseRecords hl]
  exact parseRecords_codeRange_of_drop 0 hrecords ha hn

/-- The tag BUILD stores for a good image is TAG's (R99). -/
theorem tagOf_of_imageError {im : Image} (h : imageError im = none) (idx : BitVec 16) :
    tagOf im.name idx = .ok (nameTagOf im.name) := by
  obtain ⟨-, -, hascii⟩ := imageError_eq_none.mp h
  obtain ⟨t, ht, -⟩ := tagOf_ascii idx hascii
  rw [ht, tagOf_eq_nameTagOf ht]

/-- The pixels read back for an image are its own, each quantized once (R124). -/
theorem getElem?_pixels_parsed_imageRaw {im : Image} {i : Nat} {p : Pixel} (h : im.pixels[i]? = some p) :
    (imageRaw im).parsed.pixels[i]? = some (codeColor (qenc p)) := by
  rw [RawRecord.parsed, List.getElem?_map, getElem?_codes_imageRaw, h]
  rfl

end Sys2Proof.Laws
end

section
/-! The container decode path (42_container_decode.md): the completions of HUNPACK, DUNPACK, UNTAG and PUNPACK, PARSE as a
walk with them, and what PARSE makes of a container BUILD delivered. -/
namespace Sys2Proof.Laws
open Sys2Proof.Machine

/-- Settles O44, by the three beginnings of a stream. -/
theorem hunpackChecksMagicAndReadsTheCount : Obligations.HunpackChecksMagicAndReadsTheCount := by
  refine ⟨decode_hunpack, fun input s hin => ⟨_, exec_of_wellFormed hin, fun hb => ?_, ?_, ?_⟩⟩
  · exact completesErr_of_perform (congrArg (Except.map _) (hunpack_badMagic s.cfg hb)) rfl
  · rintro rfl
    exact completesErr_of_perform (congrArg (Except.map _) (hunpack_prematureEos s.cfg)) rfl
  · rintro n rest rfl
    exact completesOk_of_perform (congrArg (Except.map _) (hunpack_ok s.cfg n rest))

/-- Settles O45, by the two checks of `dunpack` in their order. -/
theorem dunpackReadsOneDescriptor : Obligations.DunpackReadsOneDescriptor := by
  refine ⟨decode_dunpack, fun input off s hin =>
    ⟨_, exec_of_wellFormed hin, fun ht => ?_, fun hl hr hm => ?_, fun hl hok => ?_⟩⟩
  · exact completesErr_atOffset (congrArg (Except.map _) (dunpack_truncated s.cfg noIndex ht)) rfl
  · exact completesErr_atOffset (congrArg (Except.map _) (dunpack_mismatch s.cfg noIndex hl ⟨hr, hm⟩)) rfl
  · have hd : ¬ DimBad s.cfg input off := by
      rintro ⟨hr, hm⟩
      rcases hok with hi | he
      · exact nomatch hr.symm.trans hi
      · exact hm he
    exact completesOk_of_perform (congrArg (Except.map _) (dunpack_ok s.cfg noIndex hl hd))

/-- Settles O46: a tag is its bytes without trailing spaces, and the spaces. -/
theorem untagRemovesOnlyTrailingSpaces : Obligations.UntagRemovesOnlyTrailingSpaces := by
  refine ⟨decode_untag, fun tg s => ⟨_, untag tg, exec_of_wellFormed rfl, completesOk_of_perform rfl, ?_, ?_⟩⟩
  · rw [untag_eq_withoutSpaces]
    exact (withoutSpaces_append_replicate (tagBytes tg)).symm
  · rw [untag_eq_withoutSpaces]
    exact getLast?_withoutSpaces _

/-- Settles O47: the block is cut short, or its codes are all in range, or one is the first out of range. -/
theorem punpackDecodesEachCodeInOrder : Obligations.PunpackDecodesEachCodeInOrder := by
  refine ⟨decode_punpack, fun input off n s hin =>
    ⟨_, exec_of_wellFormed hin, fun ht => ?_, fun hl hg => ?_, fun hl i hi hbad hfirst => ?_⟩⟩
  · exact completesErr_atOffset (congrArg (Except.map _) (punpack_truncated s.cfg noIndex ht)) rfl
  · refine ⟨_, completesOk_of_perform (congrArg (Except.map _) (punpack_ok s.cfg noIndex hl hg)), ?_, fun i hi => ?_⟩
    · rw [List.length_map, List.length_range]
    · rw [List.getElem?_map, List.getElem?_range hi]
      rfl
  · exact completesErr_atOffset (congrArg (Except.map _) (punpack_codeRange s.cfg noIndex hl hi hbad hfirst)) rfl

/-- Settles O48: both PARSE and the host's walk deliver the good records after a header. -/
theorem parseDeliversExactlyTheWalkOfThePrimitives : Obligations.ParseDeliversExactlyTheWalkOfThePrimitives := by
  intro input s recs hin
  rw [exec_parse_completesOk_iff hin, parse_eq_ok]
  constructor
  · rintro ⟨n, rest, last, rfl, hg⟩
    obtain ⟨t₀, h₀, hv₀⟩ := exec_delivers (i := .hunpack _) hin (congrArg (Except.map _) (hunpack_ok s.cfg n rest))
    exact ⟨t₀, n, 5, last, h₀, hv₀, (walk_iff_goodRecords hin).mpr hg⟩
  · rintro ⟨t₀, n, cur, last, h₀, hv₀, hw⟩
    obtain ⟨rfl, rest, rfl⟩ := stream_of_header h₀ hv₀
    exact ⟨n, rest, last, rfl, (walk_iff_goodRecords hin).mp hw⟩

/-- Settles O49: after a walk over good records, the error of the next one is PARSE's. -/
theorem parseReportsTheFirstErrorInStreamOrder : Obligations.ParseReportsTheFirstErrorInStreamOrder := by
  refine fun input s hin => ⟨_, exec_of_wellFormed hin, fun hb => ?_, ?_, ?_⟩
  · exact completesErr_of_perform (congrArg (Except.map _) (parse_badMagic s.cfg hb)) rfl
  · rintro rfl
    exact completesErr_of_perform (congrArg (Except.map _) (parse_prematureEos s.cfg)) rfl
  · rintro n rest j recs off rfl hj hw
    have hparse {e : CmdError} (he : parseRecord s.cfg _ j off = .error e) :=
      congrArg (Except.map Payload.records) (parse_error_of_record hj ((walk_iff_goodRecords hin).mp hw) he)
    refine ⟨fun ht => ?_, fun hl => ⟨fun hd => ?_, fun hd => ⟨fun ht => ?_, fun hend i hi hbad hfirst => ?_⟩⟩⟩
    · exact completesErr_atOffset (hparse (parseRecord_truncDesc s.cfg j ht)) rfl
    · exact completesErr_atOffset (hparse (parseRecord_dimMismatch s.cfg j hl hd)) rfl
    · exact completesErr_atOffset (hparse (parseRecord_truncPixels s.cfg j hl hd ht)) rfl
    · exact completesErr_atOffset (hparse (parseRecord_codeRange s.cfg j hl hd hend hi hbad hfirst)) rfl

/-- Settles O50: what PARSE accepts is a container with any bytes after it. -/
theorem trailingBytesAreIgnored : Obligations.TrailingBytesAreIgnored := by
  rintro input extra s recs hin ⟨t, h, hok⟩
  obtain ⟨raws, trailing, hl, ha, rfl, rfl⟩ := container_of_parse (parse_of_payload h hok.payload)
  rw [exec_parse_completesOk_iff hin, List.append_assoc]
  exact parse_container (trailing ++ extra) hl ha

/-- Settles O54: BUILD delivers the container of its images' records, and PARSE accepts those whose codes are in range. -/
theorem parseReadsBackWhatBuildDelivers : Obligations.ParseReadsBackWhatBuildDelivers := by
  intro images s t rom h hv u hmagic hin
  obtain ⟨hl, hgood, rfl⟩ := container_of_build (build_of_payload h hv)
  have hl' : (images.map imageRaw).length ≤ 255 := by rwa [List.length_map]
  rw [← hmagic] at hin ⊢
  refine ⟨fun hd => ?_, fun hd hlight => ?_⟩
  · have hp := parse_container [] hl' (List.forall_mem_map.mpr fun im him => acceptable_imageRaw (hgood im him) hd)
    rw [List.append_nil] at hp
    obtain ⟨t', ht', hok⟩ := (exec_parse_completesOk_iff hin).mpr hp
    refine ⟨t', _, ht', hok, by rw [List.length_map, List.length_map], fun k im hk => ?_⟩
    have him := hgood im (List.mem_of_getElem? hk)
    refine ⟨(imageRaw im).parsed, by rw [List.getElem?_map, List.getElem?_map, hk]; rfl, rfl, rfl,
      tagOf_of_imageError him _, rfl, ?_, fun i p hp => ?_⟩
    · rw [RawRecord.parsed, List.length_map, length_codes_imageRaw]
    · exact ⟨_, getElem?_pixels_parsed_imageRaw hp, qdec_qenc p _ _⟩
  · obtain ⟨im, him, p, hp, ha, hr, hg, hb⟩ := hlight
    have hbad := not_acceptable_imageRaw hd hp (toNat_qenc_lightest ha hr hg hb)
    obtain ⟨idx, v, hparse⟩ := parse_container_codeRange hl'
      (List.forall_mem_map.mpr fun im him => acceptable_imageRaw (cfg := withMax512 u.cfg) (hgood im him) rfl)
      fun hall => hbad (hall _ (List.mem_map_of_mem him))
    exact ⟨_, idx, v, exec_of_wellFormed hin,
      completesErr_of_perform (congrArg (Except.map Payload.records) hparse) rfl⟩

/-- Settles O56: the name of a tag is the stored characters without their trailing spaces. -/
theorem nameReadBackIsTheTruncatedName : Obligations.NameReadBackIsTheTruncatedName := by
  refine ⟨fun name idx tg h => ?_, fun name name' common i j idx tg tg' hname hname' h h' => ?_⟩
  · rw [untag_of_tagOf h]
    exact ⟨_, (withoutSpaces_append_replicate (storedChars name)).symm, getLast?_withoutSpaces _⟩
  · rw [untag_of_tagOf h, untag_of_tagOf h', storedChars_of_spaces hname, storedChars_of_spaces hname',
      withoutSpaces_append_spaces, withoutSpaces_append_spaces]

end Sys2Proof.Laws
end

section
/-! The states of the block (60_exceptions.md R148, R149): what a command in progress becomes in a step, and that idle
changes nothing. -/
namespace Sys2Proof.Laws
open Sys2Proof.Machine

/-- The block goes on without touching the host. -/
theorem finishCommand_host {s t : State} (h : finishCommand s = .next t) : t.host = s.host := by
  rcases finishCommand_stays_or_completes h with ⟨-, rfl⟩ | ⟨-, o, rfl⟩
  · rfl
  · exact complete_host o s

/-- Going on from a command in progress completes it, with a result or an error (R30). -/
theorem finishCommand_completes {s t : State} {r : Running} (hp : s.inProgress = some r)
    (h : finishCommand s = .next t) :
    (∃ v, CompletesOk s t v) ∨ ∃ st idx off, CompletesErr s t st idx off := by
  rcases finishCommand_stays_or_completes h with ⟨hn, -⟩ | ⟨-, o, rfl⟩
  · exact nomatch hp.symm.trans hn
  · exact (complete_ok_or_error o s).imp_right fun ⟨st, idx, off, he, _⟩ => ⟨st, idx, off, he⟩

/-- The passing of time leaves a command in progress, with some working variables. -/
theorem passTime_inProgress {s : State} {r : Running} (h : s.inProgress = some r) :
    ∃ w, (passTime s).inProgress = some ⟨r.cmd, w⟩ :=
  ⟨_, by rw [passTime_busy s r h]⟩

/-- Settles O19, by the cases of a step: a wait or an issue completes the command, a write or a read leaves it in
progress, and a reset abandons it. -/
theorem onlyResetCancelsACommand : Obligations.OnlyResetCancelsACommand := by
  intro s t r hi hp hstep
  have hbusy : statusBusy s.status = true := by rw [hi.busyIff, hp]; rfl
  rcases step_next hstep with ⟨-, hf⟩ | ⟨rest, -, hf⟩ | ⟨cmd, rest, -, hb, -, -⟩ | ⟨w, rest, -, -, rfl⟩ |
    ⟨reg, rest, v, -, -, rfl⟩ | ⟨rest, hh, rfl⟩
  · rw [finishCommand_host hf]
    exact .inr ((finishCommand_completes hp hf).imp_right .inl)
  · rw [finishCommand_host hf]
    exact .inr ((finishCommand_completes (s := { s with host := rest }) hp hf).imp_right .inl)
  · exact nomatch hbusy.symm.trans hb
  · obtain ⟨work, hw⟩ := passTime_inProgress (s := { s with host := rest, opnds := w.apply s.opnds }) hp
    exact .inl ⟨work, hw, passTime_sameResponse ⟨rfl, rfl, rfl, rfl⟩⟩
  · obtain ⟨work, hw⟩ := passTime_inProgress (s := { s with host := rest, hostRead := some v }) hp
    exact .inl ⟨work, hw, passTime_sameResponse ⟨rfl, rfl, rfl, rfl⟩⟩
  · exact .inr (.inr (.inr ⟨⟨rest, hh⟩, rfl, rfl, rfl, rfl, rfl⟩))

/-- Settles O22: with nothing to do and with a wait the block goes on, and from idle it goes on as it is. -/
theorem idleChangesNoState : Obligations.IdleChangesNoState := by
  refine ⟨fun s hp hh => ?_, fun s rest hp hh => ?_⟩
  · rw [step_nil hh, finishCommand_idle hp]
  · rw [step_wait hh, finishCommand_idle (s := { s with host := rest }) hp]

end Sys2Proof.Laws
end

section
/-! The kinds of error (60_exceptions.md R132 to R136): each primitive raises errors of one kind alone, the kind of its
path, and the commands are composed of primitives of their own path. -/
namespace Sys2Proof.Laws
open Sys2Proof.Machine

/-! ### Outcomes whose errors are of one kind -/

/-- Every error this outcome may be is of the kind `k`. -/
def RaisesOnly {α : Type} (k : Kind) (x : Except CmdError α) : Prop :=
  ∀ e, x = .error e → e.reason.kind = k

section
variable {α β : Type} {k : Kind}

theorem RaisesOnly.ok (v : α) : RaisesOnly k (.ok v) := nofun

theorem RaisesOnly.error {e : CmdError} (h : e.reason.kind = k) : RaisesOnly k (.error e : Except CmdError α) := by
  rintro _ ⟨⟩
  exact h

theorem RaisesOnly.map {x : Except CmdError α} (h : RaisesOnly k x) (f : α → β) : RaisesOnly k (x.map f) :=
  fun e he => h e (exceptMap_eq_error he)

theorem RaisesOnly.bind {x : Except CmdError α} {f : α → Except CmdError β} (hx : RaisesOnly k x)
    (hf : ∀ a, RaisesOnly k (f a)) : RaisesOnly k (x >>= f) := by
  cases x with
  | ok a => exact hf a
  | error e => exact .error (hx e rfl)

theorem RaisesOnly.ite {c : Prop} [Decidable c] {x y : Except CmdError α} (hx : RaisesOnly k x) (hy : RaisesOnly k y) :
    RaisesOnly k (if c then x else y) := by
  split
  · exact hx
  · exact hy

end

/-! ### The encode path -/

theorem tagOf_raisesOnly (name : List Char) (idx : BitVec 16) : RaisesOnly .inputConstraint (tagOf name idx) :=
  .ite (.ok _) (.error rfl)

theorem hpack_raisesOnly (cfg : Config) (count : Nat) : RaisesOnly .inputConstraint (hpack cfg count) :=
  .ite (.error rfl) (.ok _)

theorem countCheck_raisesOnly (w h : U32) (n : Nat) (idx : BitVec 16) :
    RaisesOnly .inputConstraint (countCheck w h n idx) :=
  .ite (.error rfl) (.ite (.error rfl) (.ok _))

theorem dpack_raisesOnly (w h : U32) (n : Nat) (t : Tag) : RaisesOnly .inputConstraint (dpack w h n t) :=
  (countCheck_raisesOnly w h n noIndex).bind fun _ => .ok _

theorem buildRecord_raisesOnly (k : Nat) (im : Image) : RaisesOnly .inputConstraint (buildRecord k im) :=
  (countCheck_raisesOnly _ _ _ _).bind fun _ => (tagOf_raisesOnly _ _).bind fun _ => .ok _

theorem buildRecords_raisesOnly (k : Nat) (images : List Image) :
    RaisesOnly .inputConstraint (buildRecords k images) := by
  induction images generalizing k with
  | nil => exact .ok _
  | cons im rest ih => exact (buildRecord_raisesOnly k im).bind fun _ => (ih (k + 1)).bind fun _ => .ok _

theorem build_raisesOnly (cfg : Config) (images : List Image) : RaisesOnly .inputConstraint (build cfg images) :=
  (hpack_raisesOnly cfg images.length).bind fun _ => (buildRecords_raisesOnly 0 images).bind fun _ => .ok _

/-! ### The decode path -/

theorem qdec_raisesOnly (limit : DecodeMax) (code : Code) (idx : BitVec 16) (off : BitVec 64) :
    RaisesOnly .format (qdec limit code idx off) :=
  .ite (.error rfl) (.ite (.ok _) (.ok _))

theorem hunpack_raisesOnly (cfg : Config) (input : Bytes) : RaisesOnly .format (hunpack cfg input) :=
  .ite (.error rfl) (.ite (.error rfl) (.ite (.error rfl) (.ok _)))

theorem dunpack_raisesOnly (cfg : Config) (input : Bytes) (off : Nat) (idx : BitVec 16) :
    RaisesOnly .format (dunpack cfg input off idx) :=
  .ite (.error rfl) (.ite (.error rfl) (.ok _))

theorem unpackCodes_raisesOnly (limit : DecodeMax) (input : Bytes) (off : Nat) (idx : BitVec 16) (m i : Nat) :
    RaisesOnly .format (unpackCodes limit input off idx m i) := by
  induction m generalizing i with
  | zero => exact .ok _
  | succ m ih => exact (qdec_raisesOnly _ _ _ _).bind fun _ => (ih (i + 1)).bind fun _ => .ok _

theorem punpack_raisesOnly (cfg : Config) (input : Bytes) (off n : Nat) (idx : BitVec 16) :
    RaisesOnly .format (punpack cfg input off n idx) :=
  .ite (.error rfl) ((unpackCodes_raisesOnly _ input off idx n 0).map _)

theorem parseRecord_raisesOnly (cfg : Config) (input : Bytes) (k cur : Nat) :
    RaisesOnly .format (parseRecord cfg input k cur) :=
  (dunpack_raisesOnly _ _ _ _).bind fun _ => (punpack_raisesOnly _ _ _ _ _).bind fun _ => .ok _

theorem parseRecords_raisesOnly (cfg : Config) (input : Bytes) (m k cur : Nat) :
    RaisesOnly .format (parseRecords cfg input m k cur) := by
  induction m generalizing k cur with
  | zero => exact .ok _
  | succ m ih => exact (parseRecord_raisesOnly cfg input k cur).bind fun _ => (ih _ _).bind fun _ => .ok _

theorem parse_raisesOnly (cfg : Config) (input : Bytes) : RaisesOnly .format (parse cfg input) :=
  (hunpack_raisesOnly cfg input).bind fun _ => parseRecords_raisesOnly _ _ _ _ _

/-! ### The commands -/

/-- The one kind of error a command may raise (R132, R135); `ok` for the commands that raise none. -/
def pathErrorKind : Instr → Kind
  | .qenc _ _ _ _ => .ok
  | .qdec _ => .format
  | .tag _ => .inputConstraint
  | .hpack _ => .inputConstraint
  | .dpack _ _ _ _ => .inputConstraint
  | .ppack _ => .ok
  | .build _ => .inputConstraint
  | .hunpack _ => .format
  | .dunpack _ _ => .format
  | .untag _ => .ok
  | .punpack _ _ _ => .format
  | .parse _ => .format

theorem perform_raisesOnly (cfg : Config) (i : Instr) : RaisesOnly (pathErrorKind i) (perform cfg i) := by
  cases i with
  | qenc r g b a => exact .ok _
  | qdec code => exact (qdec_raisesOnly _ code _ _).map _
  | tag name => exact (tagOf_raisesOnly name _).map _
  | hpack count => exact (hpack_raisesOnly cfg count).map _
  | dpack w h n t => exact (dpack_raisesOnly w h n t).map _
  | ppack pixels => exact .ok _
  | build images => exact (build_raisesOnly cfg images).map _
  | hunpack input => exact (hunpack_raisesOnly cfg input).map _
  | dunpack input off => exact (dunpack_raisesOnly cfg input off _).map _
  | untag t => exact .ok _
  | punpack input off n => exact (punpack_raisesOnly cfg input off n _).map _
  | parse input => exact (parse_raisesOnly cfg input).map _

/-- A command leaves in `KIND` either no error or the one kind of its path. -/
theorem exec_statusKind {i : Instr} {s t : State} (h : exec i s = .next t) :
    statusKind t.status = 0#2 ∨ statusKind t.status = (pathErrorKind i).code := by
  obtain ⟨-, rfl⟩ := exec_next h
  cases ho : perform s.cfg i with
  | ok v => exact .inl statusKind_statusOk
  | error e =>
    refine .inr ?_
    rw [← perform_raisesOnly s.cfg i e ho]
    exact statusKind_packStatus ..

/-- Settles O26: `KIND` is 0 or the kind of the command's path, which is never IllegalCommand. -/
theorem errorKindsBelongToTheirPaths : Obligations.ErrorKindsBelongToTheirPaths := by
  intro i s t h
  rcases exec_statusKind h with hk | hk <;> rw [hk]
  · exact ⟨nofun, nofun, nofun⟩
  · cases i <;> simp [pathErrorKind, Kind.code]

end Sys2Proof.Laws
end

section
/-! SUPPORT. The magic of a block (00_scope.md R6): a tag is determined by its bytes, and whatever permitted value
`MAGIC` is, it is not "xxxx". -/
namespace Sys2Proof.Laws
open Sys2Proof.Machine

theorem tagBytes_injective : Function.Injective tagBytes := by
  rintro ⟨a0, a1, a2, a3⟩ ⟨b0, b1, b2, b3⟩ h
  simpa [tagBytes] using h

/-- `MAGIC` as a number fits four bytes and is not that of "xxxx" (D2). -/
theorem magicNumber_permitted : Config.magicNumber < 2 ^ 32 ∧ Config.magicNumber ≠ 0x78787878 := by
  have hchoice := Config.magicChoice.isLt
  unfold Config.magicNumber
  split <;> omega

/-- The configuration at reset is one the spec permits: the four bytes of a number make "xxxx" only when they are those
of 0x78787878. -/
theorem wf_default : Config.default.wf = true := by
  obtain ⟨hlt, hne⟩ := magicNumber_permitted
  rw [Config.wf, bne_iff_ne]
  intro h
  obtain ⟨h0, h1, h2, h3⟩ := Tag.mk.inj h
  have h0 := congrArg BitVec.toNat h0
  have h1 := congrArg BitVec.toNat h1
  have h2 := congrArg BitVec.toNat h2
  have h3 := congrArg BitVec.toNat h3
  simp only [BitVec.toNat_ofNat] at h0 h1 h2 h3
  omega

end Sys2Proof.Laws
end

section
/-! Reset and the hazards (70_reset_and_hazards.md R150, R154, R155): what a reset does and an idle block does not, an
issue while a command is in progress, and blocks whose parameters differ. -/
namespace Sys2Proof.Laws
open Sys2Proof.Machine

/-- From idle the block goes on as it is. -/
theorem eq_of_finishCommand_idle {s t : State} (hp : s.inProgress = none) (h : finishCommand s = .next t) : t = s := by
  rw [finishCommand_idle hp] at h
  injection h with h
  exact h.symm

/-- A step of an idle block that is no issue and no reset changes the host's side alone (R150). -/
theorem step_idle {s t : State} (hp : s.inProgress = none) (hissue : ∀ cmd rest, s.host ≠ .issue cmd :: rest)
    (hreset : ∀ rest, s.host ≠ .reset :: rest) (h : step s = .next t) :
    ∃ o host v, t = { s with opnds := o, host := host, hostRead := v } := by
  rcases step_next h with ⟨-, hf⟩ | ⟨rest, -, hf⟩ | ⟨cmd, rest, hh, -, -, -⟩ | ⟨w, rest, -, -, rfl⟩ |
    ⟨reg, rest, v, -, -, rfl⟩ | ⟨rest, hh, -⟩
  · exact ⟨_, _, _, eq_of_finishCommand_idle hp hf⟩
  · exact ⟨_, _, _, eq_of_finishCommand_idle (s := { s with host := rest }) hp hf⟩
  · exact absurd hh (hissue cmd rest)
  · exact ⟨_, _, _, passTime_idle { s with host := rest, opnds := w.apply s.opnds } hp⟩
  · exact ⟨_, _, _, passTime_idle { s with host := rest, hostRead := some v } hp⟩
  · exact absurd hh (hreset rest)

/-- A pixel with the largest code is one of the lightest opaque ones (R84). -/
theorem lightest_of_qenc_eq {p : Pixel} (h : qenc p = 512#16) :
    p.a ≠ 0#8 ∧ 224 ≤ p.r.toNat ∧ 224 ≤ p.g.toNat ∧ 224 ≤ p.b.toNat := by
  have ha : p.a ≠ 0#8 := fun ha => nomatch (qenc_transparent ha).symm.trans h
  have hbright : ¬ (p.r.toNat < 224 ∨ p.g.toNat < 224 ∨ p.b.toNat < 224) := by
    intro hdark
    have hle := toNat_qenc_le_of_darker hdark
    rw [h] at hle
    exact absurd hle (by decide)
  exact ⟨ha, by omega⟩

/-- Settles O16: the step is the completion of the command in progress, and a completion leaves the host alone. -/
theorem issueWhileBusyIsNotAdmitted : Obligations.IssueWhileBusyIsNotAdmitted := by
  intro s cmd rest t hi hh hb h
  rw [step_issue_busy hh hb] at h
  rcases finishCommand_stays_or_completes h with ⟨hp, -⟩ | ⟨-, o, rfl⟩
  · rw [hi.busyIff, hp] at hb
    exact nomatch hb
  · exact ⟨(complete_host o s).trans hh, complete_inProgress o s, statusBusy_complete o s, statusDone_complete o s⟩

/-- Settles O55: the container begins with the builder's magic, and a pixel of code 512 is one of those for which the
round trip fails with `DECODE_MAX` = 511. -/
theorem instancesMustAgreeOnMagicAndDecodeMax : Obligations.InstancesMustAgreeOnMagicAndDecodeMax := by
  intro images s t rom h hv u hin
  constructor
  · intro hmagic
    obtain ⟨-, -, rfl⟩ := container_of_build (build_of_payload h hv)
    have hbad : (containerBytes s.cfg.magic (images.map imageRaw)).take 4 ≠ tagBytes u.cfg.magic := by
      intro hbytes
      exact hmagic (tagBytes_injective hbytes).symm
    exact ⟨_, exec_of_wellFormed hin,
      completesErr_of_perform (congrArg (Except.map Payload.records) (parse_badMagic u.cfg hbad)) rfl⟩
  · rintro hmagic hd ⟨im, him, p, hp, hcode⟩
    obtain ⟨-, hfails⟩ := parseReadsBackWhatBuildDelivers images s t rom h hv u hmagic hin
    exact hfails hd ⟨im, him, p, hp, lightest_of_qenc_eq hcode⟩

/-- Settles O1: the reset values are those of `State.reset`, a reset step is `resetBlock`, and an idle step that is no
issue and no reset changes the host's side alone. -/
theorem resetSetsTheResponseAndAbandonsTheCommand : Obligations.ResetSetsTheResponseAndAbandonsTheCommand := by
  refine ⟨⟨rfl, rfl, rfl, rfl, rfl⟩, fun s rest hh => ?_, fun s t hp hissue hreset h => ?_⟩
  · exact ⟨_, step_reset hh, rfl, rfl, rfl, rfl, rfl, rfl, rfl, rfl⟩
  · obtain ⟨o, host, v, rfl⟩ := step_idle hp hissue hreset h
    exact ⟨⟨rfl, rfl, rfl, rfl⟩, hp, rfl⟩

/-- Settles O2: `MAGIC` is a permitted value, `STATUS` is 0x00, and nothing else holds a value. -/
theorem resetStateMeetsTheMachineInvariant : Obligations.ResetStateMeetsTheMachineInvariant where
  cfgOk := wf_default
  busyIff := statusBusy_zero
  statusOk := statusLegal_zero
  payloadIff := rfl
  errIndexIff := rfl
  errOffsetIff := rfl
  payloadShaped := fun _ hv => nomatch hv
  admitted := fun _ hr => nomatch hr

end Sys2Proof.Laws
end

section
/-! A word placed from outside (30_encoding.md section 1; notes/assumptions/19.md): the state it is issued in, and the step
that runs it. -/
namespace Sys2Proof.Laws
open Sys2Proof.Machine

/-- A table word that selects a command is the command byte that selects it with an all-zero record. -/
theorem decode_of_decodeTableWord {w : Nat} {i : Instr} (h : decodeTableWord 8 w = some i) :
    decode (BitVec.ofNat 8 w) OperandRecord.zero = .ok i := by
  obtain ⟨-, h⟩ := Option.ite_none_right_eq_some.mp h
  cases hd : decode (BitVec.ofNat 8 w) OperandRecord.zero with
  | ok j =>
    rw [hd] at h
    exact congrArg Except.ok (Option.some.inj h)
  | error why =>
    rw [hd] at h
    exact nomatch h

/-- The state in which the block has been issued a table word: the buffers are all zeros, and the host is as before. -/
def tableWordIssued (s : State) (w : Nat) : State :=
  startCommand (BitVec.ofNat 8 w) { s with opnds := OperandRecord.zero }

/-- The host waits first, so the step after a word is placed is its completion. -/
theorem step_withFetchWord (s : State) (w : Nat) : step (s.withFetchWord 8 w) = finishCommand (tableWordIssued s w) :=
  step_wait rfl

/-- Settles O6: the step is the completion of the word in progress, which decodes to the command. -/
theorem tableWordIsRunByTheNextStep : Obligations.TableWordIsRunByTheNextStep := by
  intro s w i h
  refine ⟨tableWordIssued s w, ?_, rfl, rfl, rfl, statusBusy_statusAtIssue s.status⟩
  rw [step_withFetchWord]
  exact finishCommand_decoded (startCommand_inProgress _ _) (decode_of_decodeTableWord h)

end Sys2Proof.Laws
end
